-- ==== Sys2Proof/Word.lean ====
section
/-! DEFINITION. The words of the block and the values that travel on its ports: the 64-bit floating-point word, the
triple DecomposedFloat, the three-way order, and the five operand formats (spec/00_scope.md R9 to R11,
spec/10_state.md R27, spec/30_encoding.md R65). -/

namespace Sys2Proof

/-- One byte, the unit in which an operation number is handed to the decoder (log 4). -/
abbrev Byte := BitVec 8

/-- `Bits(64)`: a binary64 word as its bit pattern (R2, R11). -/
abbrev Word := BitVec 64

/-- `DF`, a DecomposedFloat (R27). `exponent` is read as a two's complement number, `mantissa` as an unsigned one, and
`sign = true` is the non-negative sign. All `2^81` triples are values of this type (R32, D27). -/
structure DF where
  mantissa : BitVec 64
  exponent : BitVec 16
  sign : Bool
deriving DecidableEq, Repr, Inhabited

/-- `Ord`: the three outcomes of a comparison (R11). There is no "unordered" outcome (R132). -/
inductive Ord3 where
  | less
  | equal
  | greater
deriving DecidableEq, Repr, Inhabited

/-- The five operand formats of R65. -/
inductive Format where
  | d
  | r
  | co
  | cb
  | cd
deriving DecidableEq, Repr

end Sys2Proof
end

