-- ==== Sys2Proof/Syntax.lean ====
section
/-! DEFINITION. The eleven operations of spec/30_encoding.md R66, one constructor for each row of
spec/opcode_table.json. No operation has an operand field or an immediate (R68): its operands are the values on its
input ports. -/

namespace Sys2Proof

/-- The operations (R66). -/
inductive Instr where
  /-- DECOMP, R81. -/
  | decomp
  /-- RECOMP, R91. -/
  | recomp
  /-- CMP, R101. -/
  | cmp
  /-- LT, R111. -/
  | lt
  /-- LE, R112. -/
  | le
  /-- GT, R113. -/
  | gt
  /-- GE, R114. -/
  | ge
  /-- EQ, R115. -/
  | eq
  /-- NE, R116. -/
  | ne
  /-- MIN, R117. -/
  | min
  /-- MAX, R118. -/
  | max
deriving DecidableEq, Repr

/-- The format column of R66. -/
def Instr.format : Instr → Format
  | .decomp => .d
  | .recomp => .r
  | .cmp => .co
  | .lt => .cb
  | .le => .cb
  | .gt => .cb
  | .ge => .cb
  | .eq => .cb
  | .ne => .cb
  | .min => .cd
  | .max => .cd

end Sys2Proof
end

