-- ==== Sys2Proof/WellFormed.lean ====
section
/-! DEFINITION. What is well-formed: an operation number (spec/30_encoding.md R66, R67), and a triple
(spec/10_state.md R30). An `Instr` has no operand field (R68), so every term of it is well-formed. -/

namespace Sys2Proof

/-- The byte is one of the assigned operation numbers `0x0` to `0xA` (R66). -/
def opAssigned (b : Byte) : Bool :=
  decide (b.toNat ≤ 10)

/-- The exponent clause of R30: `0 <= s(exponent) <= 2046`. -/
def DF.exponentInRange (d : DF) : Bool :=
  decide (0 ≤ d.exponent.toInt) && decide (d.exponent.toInt ≤ 2046)

/-- The mantissa clause of R30 for `s(exponent) = 0`: even and below `2^53`. -/
def DF.subnormalMantissa (d : DF) : Bool :=
  d.mantissa.extractLsb 63 53 == 0#11 && d.mantissa.extractLsb 0 0 == 0#1

/-- The mantissa clause of R30 for `s(exponent) != 0`: in `[2^52, 2^53)`. -/
def DF.normalMantissa (d : DF) : Bool :=
  d.mantissa.extractLsb 63 52 == 0x001#12

/-- `WF(d)` (R30): a triple that DECOMP can produce. `sign` is unconstrained. -/
def DF.wf (d : DF) : Bool :=
  d.exponentInRange &&
    (if d.exponent.toInt = 0 then d.subnormalMantissa else d.normalMantissa)

end Sys2Proof
end

