-- ==== Sys2Proof/Decode.lean ====
section
/-! DEFINITION. The operation numbers of spec/30_encoding.md R66: the decoder, total on any bytes and rejecting by
name (R67), and the encoder, both written from the table of R66. An operation number is four bits wide and is handed
over in the low half of one byte (log 4). -/

namespace Sys2Proof

/-- What a decoder answers: an operation and the bytes after it, or the reason it refuses. -/
inductive Decoded where
  | ok (i : Instr) (rest : List Byte)
  /-- There is no byte to decode. -/
  | noBytes
  /-- "no such operation": an unassigned operation number, 0xB to 0xF (R67). -/
  | noSuchOperation (op : Byte)
  /-- The byte is above 0xF, so it is no 4-bit operation number (log 4). -/
  | notAnOperationNumber (b : Byte)
deriving DecidableEq, Repr

/-- One byte, read by the table of R66. -/
def decodeOp (b : Byte) (rest : List Byte) : Decoded :=
  match b.toNat with
  | 0x0 => .ok .decomp rest
  | 0x1 => .ok .recomp rest
  | 0x2 => .ok .cmp rest
  | 0x3 => .ok .lt rest
  | 0x4 => .ok .le rest
  | 0x5 => .ok .gt rest
  | 0x6 => .ok .ge rest
  | 0x7 => .ok .eq rest
  | 0x8 => .ok .ne rest
  | 0x9 => .ok .min rest
  | 0xA => .ok .max rest
  | n => if n < 16 then .noSuchOperation b else .notAnOperationNumber b

/-- The decoder, total on any bytes (R67). -/
def decode : List Byte → Decoded
  | [] => .noBytes
  | b :: rest => decodeOp b rest

/-- The 4-bit operation number of R66. -/
def Instr.opNumber : Instr → BitVec 4
  | .decomp => 0x0#4
  | .recomp => 0x1#4
  | .cmp => 0x2#4
  | .lt => 0x3#4
  | .le => 0x4#4
  | .gt => 0x5#4
  | .ge => 0x6#4
  | .eq => 0x7#4
  | .ne => 0x8#4
  | .min => 0x9#4
  | .max => 0xA#4

/-- The operation number in one byte. -/
def Instr.opByte (i : Instr) : Byte :=
  i.opNumber.setWidth 8

/-- The encoder: one byte for each operation. -/
def encode (i : Instr) : List Byte :=
  [i.opByte]

/-- The byte in which the host's number `w` hands over an operation number: bits 7 to 0 of `w`. -/
def tableByte (w : Nat) : Byte :=
  BitVec.ofNat 8 w

/-- The bytes of the host's number `w`, the first at the lowest place: an operation is one byte, whatever width the
table gives its row, so the bytes after it are not part of it. -/
def tableBytes (_nbits w : Nat) : List Byte :=
  [tableByte w]

/-- The operation the decoder reads from the bits `w`, numbered as the opcode table numbers them. -/
def decodeTableWord (nbits w : Nat) : Option Instr :=
  match decode (tableBytes nbits w) with
  | .ok i _ => some i
  | .noBytes => none
  | .noSuchOperation _ => none
  | .notAnOperationNumber _ => none

end Sys2Proof
end

