-- ==== Sys2Proof/Config.lean ====
section
/-! DEFINITION. What the spec leaves to an implementation: the free values on the data outputs of an absent DECOMP
result (spec/93_implementation_defined.md U1) and where a loop of wiring is not stable (spec/70_reset_and_hazards.md
R172), and the settings of U2 and U3. `BYTE_ORDER` (U7) and `T_PD` (U8) are read
by no rule and do not appear. -/

namespace Sys2Proof

/-- d_sign when d_valid = 0 (R62, U1): any value, which may differ from one evaluation to the next. The first argument
counts evaluations, the second is the rejected word (log 5). -/
opaque Config.freeDSign : Nat → Word → BitVec 1

/-- d_exp when d_valid = 0 (R62, U1; log 5). -/
opaque Config.freeDExp : Nat → Word → BitVec 16

/-- d_mant when d_valid = 0 (R62, U1; log 5). -/
opaque Config.freeDMant : Nat → Word → BitVec 64

/-- What an input port carries when a line closes a loop there that is not stable, as many wires of it as the port has: the
spec leaves such a loop to the environment and states no value (R172). The arguments are the count of evaluations, the
number of the port, the line's wiring, and the values placed on f_in, r_*, a_* and b_* (log 16). -/
opaque Config.freeLoop : Nat → Nat → List (Nat × Nat) → Word → DF → DF → DF → BitVec 64

/-- f_out for a triple that is not well-formed, under the setting "any value" of U2. No step reads it (log 6). -/
opaque Config.freeFOut : Nat → DF → Word

/-- `RECOMP_NONWF`: what RECOMP does on a triple that is not well-formed (U2). -/
inductive RecompNonWF where
  | literal
  | anyValue
  | refuse
deriving DecidableEq, Repr

/-- `CMP_NONWF`: what CMP does on operands that are not well-formed (U3). -/
inductive CmpNonWF where
  | literal
  | refuse
deriving DecidableEq, Repr

/-- The spec's default setting of U2, the one the machine runs (D9; log 6). -/
def Config.recompNonWF : RecompNonWF := .literal

/-- The spec's default setting of U3, the one the machine runs (D10; log 7). -/
def Config.cmpNonWF : CmpNonWF := .literal

end Sys2Proof
end

