-- ==== Sys2Proof/Machine/State.lean ====
section
/-! DEFINITION. The state. The block stores nothing (spec/10_state.md R20, R36); what is held here is the value on each
of its input ports (R21), and the environment's side of them: the lines it has still to present
(spec/00_scope.md R18), the names it has given to values (spec/30_encoding.md R69), and the last result it read (log 1).
The output ports are functions of the input ports (R22) and stand in Machine/Ports.lean. -/

namespace Sys2Proof.Machine

/-- Three buses that carry a triple: `x_sign`, `x_exp`, `x_mant` (R21, R60). -/
structure TriplePort where
  sign : BitVec 1
  exp : BitVec 16
  mant : BitVec 64
deriving DecidableEq, Repr, Inhabited

/-- The input ports of R21. -/
structure Inputs where
  fIn : Word
  r : TriplePort
  a : TriplePort
  b : TriplePort
deriving DecidableEq, Repr, Inhabited

/-- The output ports of R21. -/
structure Outputs where
  dValid : BitVec 1
  d : TriplePort
  fOut : Word
  ord : BitVec 2
  lt : BitVec 1
  le : BitVec 1
  gt : BitVec 1
  ge : BitVec 1
  eq : BitVec 1
  ne : BitVec 1
  min : TriplePort
  max : TriplePort
deriving DecidableEq, Repr

/-- The result of one operation, by the result column of R65. `optTriple none` is the absent result of DECOMP (R17). -/
inductive Result where
  | optTriple (o : Option DF)
  | word (w : Word)
  | order (c : Ord3)
  | bool (p : Bool)
  | triple (t : DF)
deriving DecidableEq, Repr

/-- The named wires of a sequence (R69): `f<n>` is a 64-bit word, `o<n>` an optional triple, `t<n>` a triple, `c<n>` an
order and `p<n>` a Boolean. Each list holds the number of the name and its value. -/
structure Wires where
  f : List (Nat × Word)
  o : List (Nat × Option DF)
  t : List (Nat × DF)
  c : List (Nat × Ord3)
  p : List (Nat × Bool)
deriving DecidableEq, Repr, Inhabited

/-- The names of R69: `f<n>` is a 64-bit word, `o<n>` an optional triple, `t<n>` a triple, `c<n>` an order, `p<n>` a
Boolean. -/
inductive Name where
  | f (n : Nat)
  | o (n : Nat)
  | t (n : Nat)
  | c (n : Nat)
  | p (n : Nat)
deriving DecidableEq, Repr

/-- The port groups of R22: DECOMP's, RECOMP's, and the comparator's. -/
inductive PortGroup where
  | decomp
  | recomp
  | comparator
deriving DecidableEq, Repr

/-- The output ports of R21, by name. -/
inductive OutPort where
  | dValid
  | dSign
  | dExp
  | dMant
  | fOut
  | ord
  | lt
  | le
  | gt
  | ge
  | eq
  | ne
  | minSign
  | minExp
  | minMant
  | maxSign
  | maxExp
  | maxMant
deriving DecidableEq, Repr

/-- The input ports of R21, one bus each, by name. -/
inductive InBus where
  | fIn
  | rSign
  | rExp
  | rMant
  | aSign
  | aExp
  | aMant
  | bSign
  | bExp
  | bMant
deriving DecidableEq, Repr

/-- What a name of R69 puts on wires: the word `f<n>`, the presence of `o<n>`, a field of the triple `t<n>`, the code of
the order `c<n>`, the bit of the Boolean `p<n>` (R60, R62 to R64; log 17). -/
inductive NamePart where
  | f (n : Nat)
  | oValid (n : Nat)
  | tSign (n : Nat)
  | tExp (n : Nat)
  | tMant (n : Nat)
  | c (n : Nat)
  | p (n : Nat)
deriving DecidableEq, Repr

/-- What the environment puts on an input bus of `w` wires: a literal (R32; log 10), a named value, or any output port,
wired to it directly (R169). A value or an output goes onto the bus from its bit `lo` up; `lo` is 0 for a whole port
(log 17). -/
inductive Source (w : Nat) where
  | lit (v : BitVec w)
  | name (x : NamePart) (lo : Nat)
  | out (o : OutPort) (lo : Nat)
deriving DecidableEq, Repr

/-- What a line drives the three buses of a triple port with, each bus by itself. -/
structure TripleDrive where
  sign : Option (Source 1) := none
  exp : Option (Source 16) := none
  mant : Option (Source 64) := none
deriving DecidableEq, Repr, Inhabited

/-- Which input buses a line drives, and with what. A bus that is not driven keeps its value (log 9). -/
structure Drives where
  fIn : Option (Source 64) := none
  r : TripleDrive := {}
  a : TripleDrive := {}
  b : TripleDrive := {}
deriving DecidableEq, Repr, Inhabited

/-- One line of a sequence (R69). -/
inductive Line where
  /-- Drive input ports, apply the operation of that number, and name its result if a name is given. The kind of the name
  is the kind of the result. -/
  | operation (op : Byte) (drives : Drives) (dest : Option Nat)
  /-- `t<dest> = UNWRAP o<src>`, an act of the environment. -/
  | unwrap (dest src : Nat)
  /-- `f<dest> = 0x…`, a name for a literal word. -/
  | nameWord (dest : Nat) (w : Word)
deriving DecidableEq, Repr

/-- The state: see INVENTORY.md, under State. `draws` is the model's own counter for free values (log 5). -/
structure State where
  inputs : Inputs
  result : Option Result
  wires : Wires
  pending : List Line
  draws : Nat
deriving DecidableEq, Repr

/-- The block has no fault outcome (R146): no step raises one. -/
inductive Fault where
deriving DecidableEq, Repr

/-- Why a step gives no next state. None of these is raised by an operation of the block. -/
inductive Refusal where
  /-- Raised by a dispatch arm of an operation that has no meaning yet. Safe. No arm raises it now. -/
  | notModelled (mnemonic : String)
  /-- Raised by a line whose operation number is unassigned (R67, U5). Safe: the block has no such operation. -/
  | noSuchOperation (op : Byte)
  /-- Raised by a line whose byte is no 4-bit number (log 4). Safe: the block has no such operation. -/
  | notAnOperationNumber (b : Byte)
  /-- Raised by a step when the environment presents no line: the run has ended (R175; log 3). Safe. -/
  | nothingPresented
  /-- Raised by a line that reads a name `f<n>` that no line has assigned (R69; log 11). Safe. -/
  | unassignedWord (n : Nat)
  /-- Raised by a line that reads a name `o<n>` that no line has assigned (R69; log 11). Safe. -/
  | unassignedOption (n : Nat)
  /-- Raised by a line that reads a name `t<n>` that no line has assigned (R69; log 11). Safe. -/
  | unassignedTriple (n : Nat)
  /-- Raised by a line that reads a name `c<n>` that no line has assigned (R69; log 11). Safe. -/
  | unassignedOrder (n : Nat)
  /-- Raised by a line that reads a name `p<n>` that no line has assigned (R69; log 11). Safe. -/
  | unassignedBool (n : Nat)
  /-- Raised by UNWRAP of the absent result `o<n>`: the sequence has no result (R69, R147; log 11). Safe. -/
  | unwrapAbsent (n : Nat)
  /-- Raised by a line that assigns the name of number `n` a second time (R69; log 11). Safe. -/
  | assignedTwice (n : Nat)
  /-- Raised by a step when every pending line waits for another: the lines have no order (R69; log 15). Safe. -/
  | linesAwaitEachOther
deriving DecidableEq, Repr

/-- All three buses at 0 (log 2). -/
def TriplePort.zero : TriplePort :=
  { sign := 0#1, exp := 0#16, mant := 0#64 }

/-- All input ports at 0. The spec gives no port a reset value (R34); the zeros are the model's choice (log 2). -/
def Inputs.zero : Inputs :=
  { fIn := 0#64, r := .zero, a := .zero, b := .zero }

/-- No name assigned. -/
def Wires.empty : Wires :=
  { f := [], o := [], t := [], c := [], p := [] }

/-- The machine before the environment has presented anything (R34, R165, R168; log 2). -/
def State.reset : State :=
  { inputs := .zero, result := none, wires := .empty, pending := [], draws := 0 }

end Sys2Proof.Machine
end

