-- ==== Sys2Proof/Machine/Ops.lean ====
section
/-! DEFINITION. The functions of the two units on words and triples: construction (spec/40_decompose.md R81),
reconstruction (spec/41_recompose.md R91), the three-way order (spec/42_compare.md R101) and what derives from it
(spec/43_derived_relations.md R111 to R118); and how an operation reports its result. -/

namespace Sys2Proof.Machine

/-- The low 52 bits (R12). -/
def mask52 : BitVec 64 := 0x000FFFFFFFFFFFFF#64

/-- The implicit leading one (R12). -/
def bit52 : BitVec 64 := 0x0010000000000000#64

/-- The sign bit of a word (R12). -/
def bit63 : BitVec 64 := 0x8000000000000000#64

/-- `sbit`, bit 63 (R55): 1 for a negative word. -/
def sbit (w : Word) : BitVec 1 :=
  w.extractLsb 63 63

/-- `efield`, bits 62 to 52, the raw exponent field (R55). -/
def efield (w : Word) : BitVec 11 :=
  w.extractLsb 62 52

/-- `frac`, bits 51 to 0, the stored fraction (R55). -/
def frac (w : Word) : BitVec 52 :=
  w.extractLsb 51 0

/-- A finite word: not an infinity and not a NaN (R56). -/
def isFinite (w : Word) : Bool :=
  (efield w).toNat != 2047

/-- DECOMP (R81). -/
def decompose (w : Word) : Option DF :=
  if (efield w).toNat = 2047 then none
  else
    some
      { sign := decide (sbit w = 0#1)
        exponent := (efield w).setWidth 16
        mantissa :=
          if (efield w).toNat = 0 then (frac w).setWidth 64 <<< 1
          else (frac w).setWidth 64 ||| bit52 }

/-- RECOMP (R91), on every triple: the literal algorithm on 64-bit words, the left shift discarding what passes bit 63
(R94, D9; log 6). -/
def recompose (d : DF) : BitVec 64 :=
  let signBit : BitVec 64 := if d.sign then 0#64 else bit63
  if d.exponent.toInt ≤ 0 then
    signBit ||| 0#64 ||| ((d.mantissa >>> 1) &&& mask52)
  else
    signBit ||| (d.exponent.setWidth 64 <<< 52) ||| (d.mantissa &&& mask52)

/-- `cmp_s` (R14): two's complement comparison of exponents. -/
def cmpS (a b : BitVec 16) : Ord3 :=
  if a.toInt < b.toInt then .less else if a.toInt = b.toInt then .equal else .greater

/-- `cmp_u` (R14): unsigned comparison of mantissas. -/
def cmpU (a b : BitVec 64) : Ord3 :=
  if a.toNat < b.toNat then .less else if a.toNat = b.toNat then .equal else .greater

/-- `cmp_b` (R14): `false` is less than `true`. -/
def cmpB (a b : Bool) : Ord3 :=
  if a = b then .equal else if a = false then .less else .greater

/-- `rev` (R14). -/
def revOrd : Ord3 → Ord3
  | .less => .greater
  | .equal => .equal
  | .greater => .less

/-- The exponent decides, and on a tie the mantissa: the comparison of steps 2 and 3 of R101 before any reversal. -/
def cmpMagnitude (a b : DF) : Ord3 :=
  match cmpS a.exponent b.exponent with
  | .equal => cmpU a.mantissa b.mantissa
  | .less => .less
  | .greater => .greater

/-- CMP (R101), on every pair of triples (R104, D10; log 7). -/
def compareDF (a b : DF) : Ord3 :=
  if a.sign ≠ b.sign then
    if a.sign = false then .less else .greater
  else if a.sign = true then cmpMagnitude a b
  else revOrd (cmpMagnitude a b)

/-- LT (R111). -/
def lessThan (a b : DF) : Bool :=
  decide (compareDF a b = .less)

/-- LE (R112). -/
def lessOrEqual (a b : DF) : Bool :=
  decide (compareDF a b ≠ .greater)

/-- GT (R113). -/
def greaterThan (a b : DF) : Bool :=
  decide (compareDF a b = .greater)

/-- GE (R114). -/
def greaterOrEqual (a b : DF) : Bool :=
  decide (compareDF a b ≠ .less)

/-- EQ (R115): equality of the three fields. -/
def equalDF (a b : DF) : Bool :=
  decide (a.sign = b.sign) && decide (a.exponent = b.exponent) && decide (a.mantissa = b.mantissa)

/-- NE (R116). -/
def notEqualDF (a b : DF) : Bool :=
  !equalDF a b

/-- MIN (R117). -/
def minDF (a b : DF) : DF :=
  match compareDF a b with
  | .greater => b
  | .less => a
  | .equal => a

/-- MAX (R118). -/
def maxDF (a b : DF) : DF :=
  match compareDF a b with
  | .greater => a
  | .less => b
  | .equal => b

/-- An operation delivers its result to the environment and changes nothing else (R137, R138). The counter of free values
moves on, since the data outputs of an absent result may differ from one evaluation to the next (U1; log 5). -/
def State.report (s : State) (r : Result) : State :=
  { s with result := some r, draws := s.draws + 1 }

end Sys2Proof.Machine
end

