-- ==== Sys2Proof/Machine/Flags.lean ====
section
/-! DEFINITION. The codes of results on the output ports. The block has no status flag (spec/10_state.md R24); the
presence flag and the comparison outputs are plain outputs, coded by spec/30_encoding.md R63 and R64. -/

namespace Sys2Proof.Machine

/-- A Boolean on a 1-bit port: 1 for true (R64). -/
def boolBit (p : Bool) : BitVec 1 :=
  if p then 1#1 else 0#1

/-- A 1-bit port read as a Boolean (R64). -/
def bitBool (b : BitVec 1) : Bool :=
  decide (b = 1#1)

/-- The 2-bit code of an order on `ord` (R63). -/
def ordCode : Ord3 → BitVec 2
  | .less => 0b11#2
  | .equal => 0b00#2
  | .greater => 0b01#2

/-- The order that a code on `ord` stands for. The block never drives `0b10`, which stands for none (R63, U4). -/
def ordOfCode (c : BitVec 2) : Option Ord3 :=
  match c.toNat with
  | 0 => some .equal
  | 1 => some .greater
  | 3 => some .less
  | _ => none

end Sys2Proof.Machine
end

