-- ==== Sys2Proof/Machine/Operands.lean ====
section
/-! DEFINITION. Operands and their layouts: every operand is a whole port value (spec/30_encoding.md R65, R68); how a
triple stands on three buses (R60) and in the packed word `DF81` (R61). -/

namespace Sys2Proof.Machine

/-- A triple on three buses (R60): `x_sign` is 1 for the non-negative sign. -/
def tripleOnPort (d : DF) : TriplePort :=
  { sign := boolBit d.sign, exp := d.exponent, mant := d.mantissa }

/-- The triple that three buses carry (R60). -/
def TriplePort.toDF (p : TriplePort) : DF :=
  { mantissa := p.mant, exponent := p.exp, sign := bitBool p.sign }

/-- The packed form `DF81`: sign, then exponent, then mantissa (R61). -/
def packDF (d : DF) : BitVec 81 :=
  boolBit d.sign ++ d.exponent ++ d.mantissa

/-- The triple a packed word stands for (R61). -/
def unpackDF (x : BitVec 81) : DF :=
  { mantissa := x.extractLsb 63 0
    exponent := x.extractLsb 79 64
    sign := bitBool (x.extractLsb 80 80) }

/-- The operand of DECOMP (R80). -/
def State.operandW (s : State) : Word :=
  s.inputs.fIn

/-- The operand of RECOMP (R90). -/
def State.operandR (s : State) : DF :=
  s.inputs.r.toDF

/-- The first operand of the comparator (R100). -/
def State.operandA (s : State) : DF :=
  s.inputs.a.toDF

/-- The second operand of the comparator (R100). -/
def State.operandB (s : State) : DF :=
  s.inputs.b.toDF

end Sys2Proof.Machine
end

