-- ==== Sys2Proof/Machine/Comparator.lean ====
section
/-! DEFINITION. The meanings of the comparator unit's operations: CMP (spec/42_compare.md R101) and the operations
derived from it (spec/43_derived_relations.md R111 to R118). -/

namespace Sys2Proof.Machine

/-- CMP (R101). -/
def execCmp (s : State) : Host.Outcome State Fault Refusal :=
  .next (s.report (.order (compareDF s.operandA s.operandB)))

/-- LT (R111). -/
def execLt (s : State) : Host.Outcome State Fault Refusal :=
  .next (s.report (.bool (lessThan s.operandA s.operandB)))

/-- LE (R112). -/
def execLe (s : State) : Host.Outcome State Fault Refusal :=
  .next (s.report (.bool (lessOrEqual s.operandA s.operandB)))

/-- GT (R113). -/
def execGt (s : State) : Host.Outcome State Fault Refusal :=
  .next (s.report (.bool (greaterThan s.operandA s.operandB)))

/-- GE (R114). -/
def execGe (s : State) : Host.Outcome State Fault Refusal :=
  .next (s.report (.bool (greaterOrEqual s.operandA s.operandB)))

/-- EQ (R115). -/
def execEq (s : State) : Host.Outcome State Fault Refusal :=
  .next (s.report (.bool (equalDF s.operandA s.operandB)))

/-- NE (R116). -/
def execNe (s : State) : Host.Outcome State Fault Refusal :=
  .next (s.report (.bool (notEqualDF s.operandA s.operandB)))

/-- MIN (R117). -/
def execMin (s : State) : Host.Outcome State Fault Refusal :=
  .next (s.report (.triple (minDF s.operandA s.operandB)))

/-- MAX (R118). -/
def execMax (s : State) : Host.Outcome State Fault Refusal :=
  .next (s.report (.triple (maxDF s.operandA s.operandB)))

end Sys2Proof.Machine
end

