-- ==== Sys2Proof/Machine/Decomposer.lean ====
section
/-! DEFINITION. The meanings of the decomposer unit's operations, DECOMP and RECOMP. -/

namespace Sys2Proof.Machine

/-- DECOMP: f_in to an optional triple (spec/40_decompose.md R80, R81). The absent result is a normal result (R82). -/
def execDecomp (s : State) : Host.Outcome State Fault Refusal :=
  .next (s.report (.optTriple (decompose s.operandW)))

/-- RECOMP: r_* to a word (spec/41_recompose.md R90, R91). It always succeeds. -/
def execRecomp (s : State) : Host.Outcome State Fault Refusal :=
  .next (s.report (.word (recompose s.operandR)))

end Sys2Proof.Machine
end

