-- ==== Sys2Proof/Machine/Ports.lean ====
section
/-! DEFINITION. The output ports (spec/10_state.md R21, R22): each is at all times the value of its operation applied to
the present inputs. Beside them the port equations that the spec derives (spec/40_decompose.md R83,
spec/41_recompose.md R94, spec/42_compare.md R103), written bit by bit and independently of the functions. -/

namespace Sys2Proof.Machine

/-- d_sign, d_exp, d_mant: the triple of a present result, and free values when the result is absent (R62, U1; log 5). -/
def State.decomposerOut (s : State) : TriplePort :=
  match decompose s.operandW with
  | some d => tripleOnPort d
  | none =>
    { sign := Config.freeDSign s.draws s.operandW
      exp := Config.freeDExp s.draws s.operandW
      mant := Config.freeDMant s.draws s.operandW }

/-- Every output port (R22). -/
def State.outputs (s : State) : Outputs :=
  { dValid := boolBit (decompose s.operandW).isSome
    d := s.decomposerOut
    fOut := recompose s.operandR
    ord := ordCode (compareDF s.operandA s.operandB)
    lt := boolBit (lessThan s.operandA s.operandB)
    le := boolBit (lessOrEqual s.operandA s.operandB)
    gt := boolBit (greaterThan s.operandA s.operandB)
    ge := boolBit (greaterOrEqual s.operandA s.operandB)
    eq := boolBit (equalDF s.operandA s.operandB)
    ne := boolBit (notEqualDF s.operandA s.operandB)
    min := tripleOnPort (minDF s.operandA s.operandB)
    max := tripleOnPort (maxDF s.operandA s.operandB) }

/-- The group a port belongs to (R22). -/
def OutPort.group : OutPort → PortGroup
  | .dValid => .decomp
  | .dSign => .decomp
  | .dExp => .decomp
  | .dMant => .decomp
  | .fOut => .recomp
  | .ord => .comparator
  | .lt => .comparator
  | .le => .comparator
  | .gt => .comparator
  | .ge => .comparator
  | .eq => .comparator
  | .ne => .comparator
  | .minSign => .comparator
  | .minExp => .comparator
  | .minMant => .comparator
  | .maxSign => .comparator
  | .maxExp => .comparator
  | .maxMant => .comparator

/-- The wires of an output port, with zeros above them (R13). -/
def Outputs.bits (o : Outputs) : OutPort → BitVec 64
  | .dValid => o.dValid.setWidth 64
  | .dSign => o.d.sign.setWidth 64
  | .dExp => o.d.exp.setWidth 64
  | .dMant => o.d.mant
  | .fOut => o.fOut
  | .ord => o.ord.setWidth 64
  | .lt => o.lt.setWidth 64
  | .le => o.le.setWidth 64
  | .gt => o.gt.setWidth 64
  | .ge => o.ge.setWidth 64
  | .eq => o.eq.setWidth 64
  | .ne => o.ne.setWidth 64
  | .minSign => o.min.sign.setWidth 64
  | .minExp => o.min.exp.setWidth 64
  | .minMant => o.min.mant
  | .maxSign => o.max.sign.setWidth 64
  | .maxExp => o.max.exp.setWidth 64
  | .maxMant => o.max.mant

/-- A number for each output port, none of them 0. -/
def OutPort.number : OutPort → Nat
  | .dValid => 1
  | .dSign => 2
  | .dExp => 3
  | .dMant => 4
  | .fOut => 5
  | .ord => 6
  | .lt => 7
  | .le => 8
  | .gt => 9
  | .ge => 10
  | .eq => 11
  | .ne => 12
  | .minSign => 13
  | .minExp => 14
  | .minMant => 15
  | .maxSign => 16
  | .maxExp => 17
  | .maxMant => 18

/-- The number of wires of an input port (R21). -/
@[reducible] def InBus.width : InBus → Nat
  | .fIn => 64
  | .rSign => 1
  | .rExp => 16
  | .rMant => 64
  | .aSign => 1
  | .aExp => 16
  | .aMant => 64
  | .bSign => 1
  | .bExp => 16
  | .bMant => 64

/-- The group an input port belongs to (R22). -/
def InBus.group : InBus → PortGroup
  | .fIn => .decomp
  | .rSign => .recomp
  | .rExp => .recomp
  | .rMant => .recomp
  | .aSign => .comparator
  | .aExp => .comparator
  | .aMant => .comparator
  | .bSign => .comparator
  | .bExp => .comparator
  | .bMant => .comparator

/-- A number for each input port. -/
def InBus.number : InBus → Nat
  | .fIn => 0
  | .rSign => 1
  | .rExp => 2
  | .rMant => 3
  | .aSign => 4
  | .aExp => 5
  | .aMant => 6
  | .bSign => 7
  | .bExp => 8
  | .bMant => 9

/-- Every input port. -/
def InBus.all : List InBus :=
  [.fIn, .rSign, .rExp, .rMant, .aSign, .aExp, .aMant, .bSign, .bExp, .bMant]

/-- Every port group. -/
def PortGroup.all : List PortGroup :=
  [.decomp, .recomp, .comparator]

/-- The value on an input port. -/
def Inputs.at (inp : Inputs) : (x : InBus) → BitVec x.width
  | .fIn => inp.fIn
  | .rSign => inp.r.sign
  | .rExp => inp.r.exp
  | .rMant => inp.r.mant
  | .aSign => inp.a.sign
  | .aExp => inp.a.exp
  | .aMant => inp.a.mant
  | .bSign => inp.b.sign
  | .bExp => inp.b.exp
  | .bMant => inp.b.mant

/-- The input ports from a value for each of them. -/
def Inputs.ofBuses (v : (x : InBus) → BitVec x.width) : Inputs :=
  { fIn := v .fIn
    r := { sign := v .rSign, exp := v .rExp, mant := v .rMant }
    a := { sign := v .aSign, exp := v .aExp, mant := v .aMant }
    b := { sign := v .bSign, exp := v .bExp, mant := v .bMant } }

/-- d_valid by the equation of R83. -/
def dValidEquation (fIn : Word) : BitVec 1 :=
  if (fIn.extractLsb 62 52).toNat ≠ 2047 then 1#1 else 0#1

/-- d_sign, d_exp, d_mant by the equations of R83, which hold when d_valid = 1. -/
def dEquation (fIn : Word) : TriplePort :=
  { sign := ~~~(fIn.extractLsb 63 63)
    exp := 0#5 ++ fIn.extractLsb 62 52
    mant :=
      if fIn.extractLsb 62 52 = 0#11 then 0#11 ++ fIn.extractLsb 51 0 ++ 0#1
      else 0#11 ++ 1#1 ++ fIn.extractLsb 51 0 }

/-- f_out by the equations of R94. -/
def fOutEquation (r : TriplePort) : Word :=
  let pos : Bool := decide (0 < r.exp.toInt)
  (~~~r.sign ||| (if pos then r.exp.extractLsb 11 11 else 0#1)) ++
    (if pos then r.exp.extractLsb 10 0 else 0#11) ++
    (if pos then r.mant.extractLsb 51 0 else r.mant.extractLsb 52 1)

/-- `gl` of R103: the magnitude of `a` is greater. -/
def greaterMagnitude (a b : TriplePort) : Prop :=
  b.exp.toInt < a.exp.toInt ∨ (a.exp = b.exp ∧ b.mant.toNat < a.mant.toNat)

/-- `ll` of R103: the magnitude of `a` is less. -/
def lessMagnitude (a b : TriplePort) : Prop :=
  a.exp.toInt < b.exp.toInt ∨ (a.exp = b.exp ∧ a.mant.toNat < b.mant.toNat)

/-- When R103 says GREATER. -/
def greaterEquation (a b : TriplePort) : Prop :=
  (a.sign = 1#1 ∧ b.sign = 0#1) ∨
    (a.sign = b.sign ∧ a.sign = 1#1 ∧ greaterMagnitude a b) ∨
    (a.sign = b.sign ∧ a.sign = 0#1 ∧ lessMagnitude a b)

/-- When R103 says LESS. -/
def lessEquation (a b : TriplePort) : Prop :=
  (a.sign = 0#1 ∧ b.sign = 1#1) ∨
    (a.sign = b.sign ∧ a.sign = 1#1 ∧ lessMagnitude a b) ∨
    (a.sign = b.sign ∧ a.sign = 0#1 ∧ greaterMagnitude a b)

/-- When R103 says EQUAL. -/
def equalEquation (a b : TriplePort) : Prop :=
  a.sign = b.sign ∧ a.exp = b.exp ∧ a.mant = b.mant

end Sys2Proof.Machine
end

