-- ==== Sys2Proof/Machine/Sequence.lean ====
section
/-! DEFINITION. What the environment does around an operation (spec/00_scope.md R18, spec/30_encoding.md R69): it drives
input ports, some of them wired directly to output ports (spec/70_reset_and_hazards.md R169, R172), reads one
operation's result and names it, takes a triple out of a present result, and names literal words. -/

namespace Sys2Proof.Machine

/-- What a line drives an input port with. -/
def Drives.at (d : Drives) : (x : InBus) → Option (Source x.width)
  | .fIn => d.fIn
  | .rSign => d.r.sign
  | .rExp => d.r.exp
  | .rMant => d.r.mant
  | .aSign => d.a.sign
  | .aExp => d.a.exp
  | .aMant => d.a.mant
  | .bSign => d.b.sign
  | .bExp => d.b.exp
  | .bMant => d.b.mant

/-- The triple port driven with a triple written out (R32; log 10). -/
def TripleDrive.lit (p : TriplePort) : TripleDrive :=
  { sign := some (.lit p.sign), exp := some (.lit p.exp), mant := some (.lit p.mant) }

/-- The triple port driven with the triple `t<n>` (R69). -/
def TripleDrive.named (n : Nat) : TripleDrive :=
  { sign := some (.name (.tSign n) 0), exp := some (.name (.tExp n) 0), mant := some (.name (.tMant n) 0) }

/-- The triple port wired to d_* (R169). -/
def TripleDrive.dOut : TripleDrive :=
  { sign := some (.out .dSign 0), exp := some (.out .dExp 0), mant := some (.out .dMant 0) }

/-- The triple port wired to min_* (R169). -/
def TripleDrive.minOut : TripleDrive :=
  { sign := some (.out .minSign 0), exp := some (.out .minExp 0), mant := some (.out .minMant 0) }

/-- The triple port wired to max_* (R169). -/
def TripleDrive.maxOut : TripleDrive :=
  { sign := some (.out .maxSign 0), exp := some (.out .maxExp 0), mant := some (.out .maxMant 0) }

/-! ### Literals and names -/

/-- The name that a part belongs to. -/
def NamePart.name : NamePart → Name
  | .f n => .f n
  | .oValid n => .o n
  | .tSign n => .t n
  | .tExp n => .t n
  | .tMant n => .t n
  | .c n => .c n
  | .p n => .p n

/-- The name has been assigned. -/
def Wires.has (ws : Wires) : Name → Bool
  | .f n => (ws.f.lookup n).isSome
  | .o n => (ws.o.lookup n).isSome
  | .t n => (ws.t.lookup n).isSome
  | .c n => (ws.c.lookup n).isSome
  | .p n => (ws.p.lookup n).isSome

/-- The wires of a named value, with zeros above them, if the name has been assigned (R13, R60, R62 to R64; log 17). -/
def Wires.bits (ws : Wires) : NamePart → Option (BitVec 64)
  | .f n => ws.f.lookup n
  | .oValid n => (ws.o.lookup n).map fun o => (boolBit o.isSome).setWidth 64
  | .tSign n => (ws.t.lookup n).map fun t => (boolBit t.sign).setWidth 64
  | .tExp n => (ws.t.lookup n).map fun t => t.exponent.setWidth 64
  | .tMant n => (ws.t.lookup n).map fun t => t.mantissa
  | .c n => (ws.c.lookup n).map fun c => (ordCode c).setWidth 64
  | .p n => (ws.p.lookup n).map fun p => (boolBit p).setWidth 64

/-- `w` wires of a value, from its bit `lo` up (R9): zeros where the value has no more bits (log 17). -/
def wiresFrom (w : Nat) (v : BitVec 64) (lo : Nat) : BitVec w :=
  (v >>> lo).setWidth w

/-- What a line puts on an input bus when that is no output port: a literal, the value of a name, or the value it holds
(log 9). A wired bus holds its value too, until the wiring settles. -/
def placedBus {w : Nat} (ws : Wires) (held : BitVec w) : Option (Source w) → BitVec w
  | none => held
  | some (.lit v) => v
  | some (.name x lo) => ((ws.bits x).map fun v => wiresFrom w v lo).getD held
  | some (.out _ _) => held

/-- The name an input bus is driven from. -/
def sourceName {w : Nat} : Option (Source w) → Option Name
  | none => none
  | some (.lit _) => none
  | some (.name x _) => some x.name
  | some (.out _ _) => none

/-- The names a line's drives read, port by port. -/
def Drives.names (d : Drives) : List Name :=
  InBus.all.filterMap fun x => sourceName (d.at x)

/-- The refusal of a name that is not assigned (log 11). -/
def Name.unassigned : Name → Refusal
  | .f n => .unassignedWord n
  | .o n => .unassignedOption n
  | .t n => .unassignedTriple n
  | .c n => .unassignedOrder n
  | .p n => .unassignedBool n

/-- The input ports with everything on them that is not wired to an output port. -/
def State.placedInputs (s : State) (d : Drives) : Except Refusal Inputs :=
  match d.names.find? fun nm => !s.wires.has nm with
  | some nm => .error nm.unassigned
  | none => .ok (.ofBuses fun x => placedBus s.wires (s.inputs.at x) (d.at x))

/-! ### Direct wiring (R169) and loops (R172) -/

/-- What an input bus carries given the outputs: the output wired to it (R169), else what it holds. -/
def carriedBus {w : Nat} (o : Outputs) (held : BitVec w) : Option (Source w) → BitVec w
  | none => held
  | some (.lit _) => held
  | some (.name _ _) => held
  | some (.out p lo) => wiresFrom w (o.bits p) lo

/-- The group whose output an input bus is wired to. -/
def wiredFrom {w : Nat} : Option (Source w) → Option PortGroup
  | none => none
  | some (.lit _) => none
  | some (.name _ _) => none
  | some (.out p _) => some p.group

/-- An output of `g` is wired to an input of `h`. -/
def Drives.feeds (d : Drives) (g h : PortGroup) : Bool :=
  InBus.all.any fun x => decide (x.group = h) && decide (wiredFrom (d.at x) = some g)

/-- Where the loops of a wiring close (R172; log 16): at the wires from a group to itself, at the wires into f_in if
outputs go from f_in back to them, and at the wires from the comparator to r_* if f_out goes back to the comparator. Cut
there, no loop is left (`no_longer_path`). -/
def Drives.closesFrom (d : Drives) : PortGroup → PortGroup → Bool
  | .decomp, .decomp => true
  | .recomp, .decomp =>
    d.feeds .decomp .recomp ||
      (d.feeds .decomp .comparator && d.feeds .comparator .recomp && !d.feeds .recomp .comparator)
  | .comparator, .decomp =>
    d.feeds .decomp .comparator || (d.feeds .decomp .recomp && d.feeds .recomp .comparator)
  | .decomp, .recomp => false
  | .recomp, .recomp => true
  | .comparator, .recomp => d.feeds .recomp .comparator
  | .decomp, .comparator => false
  | .recomp, .comparator => false
  | .comparator, .comparator => true

/-- A loop of the wiring closes at this input port. -/
def Drives.closes (d : Drives) (x : InBus) : Bool :=
  match wiredFrom (d.at x) with
  | none => false
  | some g => d.closesFrom g x.group

/-- The line wires outputs back to inputs in a loop (R172). -/
def Drives.loops (d : Drives) : Bool :=
  InBus.all.any d.closes

/-- One pass of the outputs along the wiring to the inputs. A port at which a loop closes keeps its value. -/
def State.passWiring (s : State) (d : Drives) : State :=
  { s with
    inputs := .ofBuses fun x =>
      if d.closes x then s.inputs.at x else carriedBus s.outputs (s.inputs.at x) (d.at x) }

/-- The wiring settled. A chain of wires without a loop passes at most two output ports, since there are three port
groups (R22), so two passes settle it (R169, R171). -/
def State.settled (s : State) (d : Drives) : State :=
  (s.passWiring d).passWiring d

/-- The loop that closes at this input port, if one does, is stable: the output wired to the port is the value it already
has (R172; log 16). -/
def State.stableAt (s : State) (d : Drives) (x : InBus) : Bool :=
  !d.closes x || decide (carriedBus s.outputs (s.inputs.at x) (d.at x) = s.inputs.at x)

/-- All loops that close at the inputs of a group are stable. -/
def State.groupStable (s : State) (d : Drives) (g : PortGroup) : Bool :=
  InBus.all.all fun x => !decide (x.group = g) || s.stableAt d x

/-- The wiring of a port as numbers: two different wirings share no free value (log 16). -/
def wireNumber {w : Nat} : Option (Source w) → Nat × Nat
  | none => (0, 0)
  | some (.lit _) => (0, 0)
  | some (.name _ _) => (0, 0)
  | some (.out p lo) => (p.number, lo)

/-- The free values of the input ports, for a loop that is not stable (log 16). -/
def State.freeInputs (s : State) (d : Drives) : Inputs :=
  .ofBuses fun x =>
    (Config.freeLoop s.draws x.number (InBus.all.map fun y => wireNumber (d.at y))
      s.operandW s.operandR s.operandA s.operandB).setWidth x.width

/-- The ports of a group at which loops close carry the values `free`, and what is wired to them settles anew. -/
def State.releaseGroup (s : State) (d : Drives) (free : Inputs) (g : PortGroup) : State :=
  State.settled
    { s with inputs := .ofBuses fun x => if d.closes x && decide (x.group = g) then free.at x else s.inputs.at x } d

/-- Release the groups whose loops are not stable, one after another. `waiting` are the groups not released yet; the
first argument counts them. -/
def releaseLoops (d : Drives) (free : Inputs) : Nat → List PortGroup → State → State
  | 0, _, s => s
  | k + 1, waiting, s =>
    match waiting.find? fun g => !s.groupStable d g with
    | none => s
    | some g => releaseLoops d free k (waiting.erase g) (s.releaseGroup d free g)

/-- The state after a line's wiring has settled, its loops included: a port at which a loop closes keeps its value if the
loop is stable there, and carries a free value if it is not (R172; log 16). -/
def State.afterWiring (s : State) (d : Drives) : State :=
  releaseLoops d (s.freeInputs d) PortGroup.all.length PortGroup.all (s.settled d)

/-- The input ports after a line has driven them and its wiring has settled. -/
def State.drivenInputs (s : State) (d : Drives) : Except Refusal Inputs :=
  match s.placedInputs d with
  | .error e => .error e
  | .ok inp => .ok (State.afterWiring { s with inputs := inp } d).inputs

/-- Give the name of number `n` the value `v`: each name is assigned once (R69). -/
def assign {α : Type} (n : Nat) (v : α) (l : List (Nat × α)) : Option (List (Nat × α)) :=
  match l.lookup n with
  | some _ => none
  | none => some ((n, v) :: l)

/-- The wires with the name of number `n` assigned to a result; the result's kind is the kind of the name. -/
def Wires.assignResult (ws : Wires) (n : Nat) : Result → Option Wires
  | .word w => (assign n w ws.f).map fun l => { ws with f := l }
  | .optTriple o => (assign n o ws.o).map fun l => { ws with o := l }
  | .triple t => (assign n t ws.t).map fun l => { ws with t := l }
  | .order c => (assign n c ws.c).map fun l => { ws with c := l }
  | .bool p => (assign n p ws.p).map fun l => { ws with p := l }

/-- Name a result, or refuse a second assignment (R69; log 11). -/
def State.nameResult (s : State) (n : Nat) (r : Result) : Host.Outcome State Fault Refusal :=
  match s.wires.assignResult n r with
  | some ws => .next { s with wires := ws }
  | none => .refused (.assignedTwice n)

/-- Name the result just read, if the line gives it a name. -/
def State.nameLast (s : State) (dest : Option Nat) : Host.Outcome State Fault Refusal :=
  match dest, s.result with
  | some n, some r => s.nameResult n r
  | some _, none => .next s
  | none, _ => .next s

/-- After an operation, name what it delivered. -/
def nameAfter (dest : Option Nat) :
    Host.Outcome State Fault Refusal → Host.Outcome State Fault Refusal
  | .next t => t.nameLast dest
  | .fault e => .fault e
  | .refused e => .refused e

/-- Drive the ports, apply the operation, name the result. -/
def State.apply (s : State) (i : Instr) (d : Drives) (dest : Option Nat) :
    Host.Outcome State Fault Refusal :=
  match s.drivenInputs d with
  | .ok inp => nameAfter dest (exec i { s with inputs := inp })
  | .error e => .refused e

/-- `t<dest> = UNWRAP o<src>`: no result when `o<src>` is absent (R69, R147). -/
def State.unwrap (s : State) (dest src : Nat) : Host.Outcome State Fault Refusal :=
  match s.wires.o.lookup src with
  | none => .refused (.unassignedOption src)
  | some none => .refused (.unwrapAbsent src)
  | some (some t) => s.nameResult dest (.triple t)

/-- One line of a sequence. -/
def runLine (line : Line) (s : State) : Host.Outcome State Fault Refusal :=
  match line with
  | .operation op d dest =>
    match decode [op] with
    | .ok i _ => s.apply i d dest
    | .noBytes => .refused .nothingPresented
    | .noSuchOperation b => .refused (.noSuchOperation b)
    | .notAnOperationNumber b => .refused (.notAnOperationNumber b)
  | .unwrap dest src => s.unwrap dest src
  | .nameWord dest w => s.nameResult dest (.word w)

/-- The line that presents the operation of a number on the port values as they stand. -/
def presentOp (op : Byte) : Line :=
  .operation op {} none

end Sys2Proof.Machine
end

