-- ==== Sys2Proof/Machine/Order.lean ====
section
/-! DEFINITION. In which order pending lines run. "Lines have no order but that of their data dependences"
(spec/30_encoding.md R69): a line waits for the pending lines that assign the names it reads. Among the lines that may
run, the environment's own order decides (spec/00_scope.md R18; log 15). -/

namespace Sys2Proof.Machine

/-- The operation of a number, if it has one. -/
def operationOf (op : Byte) : Option Instr :=
  match decode [op] with
  | .ok i _ => some i
  | .noBytes => none
  | .noSuchOperation _ => none
  | .notAnOperationNumber _ => none

/-- The name of number `n` of the kind that a format's result has (R65, R69). -/
def nameOf (f : Format) (n : Nat) : Name :=
  match f with
  | .d => .o n
  | .r => .f n
  | .co => .c n
  | .cb => .p n
  | .cd => .t n

/-- The names a line reads. A line of an unassigned operation number reads none: it has no meaning (R67). -/
def Line.reads : Line → List Name
  | .operation op d _ =>
    match operationOf op with
    | some _ => d.names
    | none => []
  | .unwrap _ src => [.o src]
  | .nameWord _ _ => []

/-- The name a line assigns. -/
def Line.assigns : Line → Option Name
  | .operation op _ dest =>
    match operationOf op, dest with
    | some i, some n => some (nameOf i.format n)
    | some _, none => none
    | none, _ => none
  | .unwrap dest _ => some (.t dest)
  | .nameWord dest _ => some (.f dest)

/-- A line waits if it reads a name that is not assigned yet and that a pending line assigns. -/
def Line.waits (ws : Wires) (pending : List Line) (l : Line) : Bool :=
  l.reads.any fun nm => !ws.has nm && pending.any fun m => decide (m.assigns = some nm)

/-- The port group whose outputs an operation is. -/
def portGroupOf : Instr → PortGroup
  | .decomp => .decomp
  | .recomp => .recomp
  | .cmp => .comparator
  | .lt => .comparator
  | .le => .comparator
  | .gt => .comparator
  | .ge => .comparator
  | .eq => .comparator
  | .ne => .comparator
  | .min => .comparator
  | .max => .comparator

/-- Whether what drives an input port depends on a value that some port held, given for each group whether its outputs
do. -/
def sourceReadsHeld {w : Nat} (outputsDo : PortGroup → Bool) : Option (Source w) → Bool
  | none => true
  | some (.lit _) => false
  | some (.name _ _) => false
  | some (.out p _) => outputsDo p.group

/-- A group's outputs depend, through the line's wiring, on a value that an input port holds from before the line: at a
port that the line does not drive, or, when the count of groups runs out, at one where a loop closes. -/
def Drives.readsHeld (d : Drives) : Nat → PortGroup → Bool
  | 0, _ => true
  | k + 1, g => InBus.all.any fun x => decide (x.group = g) && sourceReadsHeld (d.readsHeld k) (d.at x)

/-- The line applies an operation, so it drives input ports. -/
def Line.isOperation : Line → Bool
  | .operation _ _ _ => true
  | .unwrap _ _ => false
  | .nameWord _ _ => false

/-- The line's result depends on what the ports held before it, not on its named and literal operands alone. Lines in the
notation of R69 never do. -/
def Line.readsPorts : Line → Bool
  | .operation op d _ =>
    match operationOf op with
    | some i => d.loops || d.readsHeld 3 (portGroupOf i)
    | none => true
  | .unwrap _ _ => false
  | .nameWord _ _ => false

/-- Two operations depend on each other through the ports: one reads what the other may have driven. -/
def Line.sharePorts (l m : Line) : Bool :=
  l.isOperation && m.isOperation && (l.readsPorts || m.readsPorts)

/-- A line may run before the lines in `passed`: it waits for no pending line, and shares no port value with those. -/
def Line.mayRun (ws : Wires) (pending passed : List Line) (l : Line) : Bool :=
  !l.waits ws pending && passed.all fun m => !l.sharePorts m

/-- The first line of a list that may run, and the others in their order. -/
def firstToRun (ws : Wires) (pending : List Line) : List Line → List Line → Option (Line × List Line)
  | _, [] => none
  | passed, l :: rest =>
    if l.mayRun ws pending passed then some (l, rest)
    else (firstToRun ws pending (passed ++ [l]) rest).map fun x => (x.1, l :: x.2)

/-- The pending line that runs next. -/
def State.nextLine (s : State) : Option (Line × List Line) :=
  firstToRun s.wires s.pending [] s.pending

end Sys2Proof.Machine
end

