-- ==== Sys2Proof/Machine/Step.lean ====
section
/-! DEFINITION. One step: the environment presents the next line (spec/00_scope.md R18), which
is the first of its pending lines that waits for no other (spec/30_encoding.md R69). A run is a finite sequence of
such steps and ends when no line is left (spec/70_reset_and_hazards.md R175). -/

namespace Sys2Proof.Machine

/-- Present the next line (Machine/Order.lean says which). -/
def step (s : State) : Host.Outcome State Fault Refusal :=
  match s.pending with
  | [] => .refused .nothingPresented
  | _ :: _ =>
    match s.nextLine with
    | some (line, rest) => runLine line { s with pending := rest }
    | none => .refused .linesAwaitEachOther

/-- `s` with the operation of the bits `w` placed before the lines it has still to present, on the port values as they
stand. -/
def State.withFetchWord (s : State) (_nbits w : Nat) : State :=
  { s with pending := presentOp (tableByte w) :: s.pending }

end Sys2Proof.Machine
end

