-- ==== Sys2Proof/Machine/Pseudo.lean ====
section
/-! DEFINITION. The pseudo-operations ROUNDTRIP, CMPF and CSWAP (spec/30_encoding.md R70), as functions and as the fixed
sequences of lines they abbreviate, and what a sort must produce (spec/43_derived_relations.md R120, R121). -/

namespace Sys2Proof.Machine

/-- ROUNDTRIP (R70): no result when the word is rejected. -/
def roundtrip (w : Word) : Option Word :=
  (decompose w).map recompose

/-- CMPF (R70, R121): no comparison result when either word is rejected. -/
def compareWords (w₁ w₂ : Word) : Option Ord3 :=
  match decompose w₁, decompose w₂ with
  | some a, some b => some (compareDF a b)
  | some _, none => none
  | none, _ => none

/-- CSWAP (R70): compare-exchange. -/
def cswap (a b : DF) : DF × DF :=
  (minDF a b, maxDF a b)

/-- The line `o<o> = DECOMP f<f>`. -/
def lineDecomp (o f : Nat) : Line :=
  .operation 0x0#8 { fIn := some (.name (.f f) 0) } (some o)

/-- The line `f<f> = RECOMP t<t>`. -/
def lineRecomp (f t : Nat) : Line :=
  .operation 0x1#8 { r := .named t } (some f)

/-- A line that applies a comparator operation to `t<x>` and `t<y>`. -/
def lineCompare (op : Byte) (dest x y : Nat) : Line :=
  .operation op { a := .named x, b := .named y } (some dest)

/-- `f<f2> = ROUNDTRIP f<f1>`, through the names `o<o>` and `t<t>` (R70). -/
def linesRoundtrip (f2 f1 o t : Nat) : List Line :=
  [lineDecomp o f1, .unwrap t o, lineRecomp f2 t]

/-- `c<c> = CMPF f<f1>, f<f2>`, through the names `o<o1>`, `o<o2>`, `t<t1>`, `t<t2>` (R70). -/
def linesCompareWords (c f1 f2 o1 o2 t1 t2 : Nat) : List Line :=
  [lineDecomp o1 f1, lineDecomp o2 f2, .unwrap t1 o1, .unwrap t2 o2, lineCompare 0x2#8 c t1 t2]

/-- `t<tl>, t<th> = CSWAP t<t1>, t<t2>` (R70). -/
def linesCswap (tl th t1 t2 : Nat) : List Line :=
  [lineCompare 0x9#8 tl t1 t2, lineCompare 0xA#8 th t1 t2]

/-- A sequence of triples is sorted (R120). -/
def isSorted : List DF → Bool
  | [] => true
  | [_] => true
  | a :: b :: l => lessOrEqual a b && isSorted (b :: l)

/-- The network of three CSWAPs of spec/95_test_vectors.md section 3. -/
def sortThree (t₁ t₂ t₃ : DF) : List DF :=
  let (t₄, t₅) := cswap t₁ t₂
  let (t₆, t₇) := cswap t₅ t₃
  let (t₈, t₉) := cswap t₄ t₆
  [t₈, t₉, t₇]

end Sys2Proof.Machine
end

