-- ==== Sys2Proof/Machine/Settings.lean ====
section
/-! DEFINITION. RECOMP and CMP under each setting of the parameters `RECOMP_NONWF` and `CMP_NONWF`
(spec/93_implementation_defined.md U2, U3). The machine runs the default, the literal setting of both; the others
are here so that a claim can be shown not to depend on the choice. -/

namespace Sys2Proof.Machine

/-- RECOMP under a setting of U2. `k` indexes the free value of the setting "any value"; `none` is "refuse". -/
def recomposeUnder (setting : RecompNonWF) (k : Nat) (d : DF) : Option Word :=
  if d.wf then some (recompose d)
  else
    match setting with
    | .literal => some (recompose d)
    | .anyValue => some (Config.freeFOut k d)
    | .refuse => none

/-- CMP under a setting of U3; `none` is "refuse". -/
def compareUnder (setting : CmpNonWF) (a b : DF) : Option Ord3 :=
  if a.wf && b.wf then some (compareDF a b)
  else
    match setting with
    | .literal => some (compareDF a b)
    | .refuse => none

end Sys2Proof.Machine
end

