-- ==== Sys2Proof/Machine/Values.lean ====
section
/-! DEFINITION. The numbers that words and triples stand for (spec/30_encoding.md R57, R58) and the integer key of
spec/44_properties.md R134. No operation computes them; they are what the order of the block is compared with. -/

namespace Sys2Proof.Machine

/-- `val(w)` of a finite word (R57). The spec gives a word with exponent field 2047 no number (log 13). -/
def valWord (w : Word) : Option ℚ :=
  if (efield w).toNat = 2047 then none
  else
    let sgn : ℚ := if sbit w = 1#1 then -1 else 1
    some <|
      if (efield w).toNat = 0 then sgn * ((frac w).toNat : ℚ) * (2 : ℚ) ^ (-1074 : ℤ)
      else sgn * ((2 : ℚ) ^ 52 + ((frac w).toNat : ℚ)) * (2 : ℚ) ^ (((efield w).toNat : ℤ) - 1075)

/-- `val_df(d)` (R58); it stands for a number only when `d` is well-formed. -/
def valDF (d : DF) : ℚ :=
  let sgn : ℚ := if d.sign then 1 else -1
  if 1 ≤ d.exponent.toInt then
    sgn * (d.mantissa.toNat : ℚ) * (2 : ℚ) ^ (d.exponent.toInt - 1075)
  else sgn * (d.mantissa.toNat : ℚ) * (2 : ℚ) ^ (-1075 : ℤ)

/-- The key `k(w)` of R134. -/
def wordKey (w : Word) : ℤ :=
  if sbit w = 0#1 then ((w.extractLsb 62 0).toNat : ℤ) else -1 - ((w.extractLsb 62 0).toNat : ℤ)

/-- The triple of +0.0 (R133). -/
def posZero : DF :=
  { mantissa := 0#64, exponent := 0#16, sign := true }

/-- The triple of -0.0 (R133). -/
def negZero : DF :=
  { mantissa := 0#64, exponent := 0#16, sign := false }

end Sys2Proof.Machine
end

