-- ==== Sys2Proof/Safety.lean ====
section
/-! DEFINITION. What counts as a safe run, in the terms claims use: triples that come from construction
(spec/10_state.md R30 to R32), names assigned once (spec/30_encoding.md R69), and what a line needs in order to run. -/

namespace Sys2Proof.Machine

/-- The exponent and mantissa that a triple port is driven with are those of one triple that construction can produce: of
a well-formed literal, of a named triple, or of min_* or max_*; or neither bus is driven. The sign is unconstrained (R30).
d_* is left out: it may be read only after d_valid has been tested, which is UNWRAP (R147). -/
def TripleDrive.constructed (t : TripleDrive) : Bool :=
  match t.exp with
  | none => decide (t.mant = none)
  | some (.lit e) =>
    match t.mant with
    | some (.lit m) => DF.wf { mantissa := m, exponent := e, sign := true }
    | _ => false
  | some (.name (.tExp n) lo) => decide (lo = 0) && decide (t.mant = some (.name (.tMant n) 0))
  | some (.name _ _) => false
  | some (.out p lo) =>
    decide (lo = 0) &&
      ((decide (p = .minExp) && decide (t.mant = some (.out .minMant 0))) ||
        (decide (p = .maxExp) && decide (t.mant = some (.out .maxMant 0))))

/-- A line none of whose sources brings in a triple that construction could not produce. A line that closes a loop at an
exponent or a mantissa is left out, since a loop that is not stable leaves any value there (R172; log 16). -/
def Line.constructed : Line → Bool
  | .operation _ d _ =>
    d.r.constructed && d.a.constructed && d.b.constructed &&
      [InBus.rExp, .rMant, .aExp, .aMant, .bExp, .bMant].all fun x => !d.closes x
  | .unwrap _ _ => true
  | .nameWord _ _ => true

/-- Every triple inside a result is well-formed. -/
def Result.constructed : Result → Bool
  | .optTriple o => o.all DF.wf
  | .triple t => t.wf
  | .word _ => true
  | .order _ => true
  | .bool _ => true

/-- Every triple anywhere in the state is one that construction can produce, and so are the literals the environment has
still to present: the discipline of R31 and R32 ("never involving NaN/infinity by construction"). -/
def State.constructed (s : State) : Bool :=
  s.inputs.r.toDF.wf && s.inputs.a.toDF.wf && s.inputs.b.toDF.wf &&
    s.result.all Result.constructed &&
    s.wires.o.all (fun e => e.2.all DF.wf) &&
    s.wires.t.all (fun e => e.2.wf) &&
    s.pending.all Line.constructed

/-- Each name is assigned once (R69). -/
def Wires.assignedOnce (ws : Wires) : Prop :=
  (ws.f.map Prod.fst).Nodup ∧ (ws.o.map Prod.fst).Nodup ∧ (ws.t.map Prod.fst).Nodup ∧
    (ws.c.map Prod.fst).Nodup ∧ (ws.p.map Prod.fst).Nodup

/-- The name of number `n` of the kind a format's result has is still free. -/
def Wires.freeFor (ws : Wires) (f : Format) (n : Nat) : Bool :=
  match f with
  | .d => (ws.o.lookup n).isNone
  | .r => (ws.f.lookup n).isNone
  | .co => (ws.c.lookup n).isNone
  | .cb => (ws.p.lookup n).isNone
  | .cd => (ws.t.lookup n).isNone

/-- All names a line's drives read are assigned. -/
def State.hasSources (s : State) (d : Drives) : Bool :=
  d.names.all s.wires.has

/-- The source is no output port: it is a literal or a name, as in the notation of R69, or there is none. -/
def sourceInNotation {w : Nat} : Option (Source w) → Bool
  | none => true
  | some (.lit _) => true
  | some (.name _ _) => true
  | some (.out _ _) => false

/-- The line is one in the notation of R69: all its operands are literals or names. -/
def Line.inNotation : Line → Bool
  | .operation op d dest => (InBus.all.all fun x => sourceInNotation (d.at x)) && !(Line.operation op d dest).readsPorts
  | .unwrap _ _ => true
  | .nameWord _ _ => true

/-- A run of `n` steps (R175). -/
def runSteps : Nat → State → Host.Outcome State Fault Refusal
  | 0, s => .next s
  | n + 1, s =>
    match step s with
    | .next t => runSteps n t
    | .fault e => .fault e
    | .refused e => .refused e

/-- Every name has the same value in both. -/
def Wires.sameNames (ws ws' : Wires) : Prop :=
  ∀ n, ws.f.lookup n = ws'.f.lookup n ∧ ws.o.lookup n = ws'.o.lookup n ∧ ws.t.lookup n = ws'.t.lookup n ∧
    ws.c.lookup n = ws'.c.lookup n ∧ ws.p.lookup n = ws'.p.lookup n

/-- The two sets of names give `nm` the same value, if they give it one. -/
def Wires.agreeAt (ws ws' : Wires) : Name → Prop
  | .f n => ws.f.lookup n = ws'.f.lookup n
  | .o n => ws.o.lookup n = ws'.o.lookup n
  | .t n => ws.t.lookup n = ws'.t.lookup n
  | .c n => ws.c.lookup n = ws'.c.lookup n
  | .p n => ws.p.lookup n = ws'.p.lookup n

/-- A result has the type that a format gives it (R65). -/
def Result.fits : Result → Format → Bool
  | .optTriple _, .d => true
  | .word _, .r => true
  | .order _, .co => true
  | .bool _, .cb => true
  | .triple _, .cd => true
  | .optTriple _, _ => false
  | .word _, _ => false
  | .order _, _ => false
  | .bool _, _ => false
  | .triple _, _ => false

/-- The state an outcome leaves, if it leaves one. -/
def stateAfter : Host.Outcome State Fault Refusal → Option State
  | .next s => some s
  | .fault _ => none
  | .refused _ => none

/-- The result an outcome has delivered, if it has. -/
def resultAfter (o : Host.Outcome State Fault Refusal) : Option Result :=
  (stateAfter o).bind State.result

end Sys2Proof.Machine
end

