-- ==== Sys2Proof/Certificates/Slice0/Obligations.lean ====
section
/-! DEFINITION. The statements for the provers. Each says which rule of spec/ it formalises. `s.operandW`, `s.operandR`,
`s.operandA` and `s.operandB` are the values on the input ports f_in, r_*, a_* and b_*. -/

open Sys2Proof Sys2Proof.Machine

/-! ### Reset, decoding, stepping -/

/-- Before the environment has presented anything, every input port is at 0, nothing is pending, nothing is named and
nothing has been read. The zeros are the model's choice (log 2), the empty program follows R175. -/
def Obligations.ResetHoldsZeroPortsAndNothingPending : Prop :=
  State.reset.inputs.fIn = 0#64 ∧
  (∀ p ∈ [State.reset.inputs.r, State.reset.inputs.a, State.reset.inputs.b],
    p.sign = 0#1 ∧ p.exp = 0#16 ∧ p.mant = 0#64) ∧
  State.reset.result = none ∧ State.reset.wires = Wires.empty ∧ State.reset.pending = [] ∧
  State.reset.draws = 0 ∧ step State.reset = .refused .nothingPresented

/-- The operation numbers of R66, each written out. -/
def Obligations.OperationNumbersDecode : Prop :=
  decode [0b0000#8] = .ok .decomp [] ∧ decode [0b0001#8] = .ok .recomp [] ∧ decode [0b0010#8] = .ok .cmp [] ∧
  decode [0b0011#8] = .ok .lt [] ∧ decode [0b0100#8] = .ok .le [] ∧ decode [0b0101#8] = .ok .gt [] ∧
  decode [0b0110#8] = .ok .ge [] ∧ decode [0b0111#8] = .ok .eq [] ∧ decode [0b1000#8] = .ok .ne [] ∧
  decode [0b1001#8] = .ok .min [] ∧ decode [0b1010#8] = .ok .max []

/-- R67: the decoder is total, `0xB` to `0xF` name no operation, and a step of a line with such a number is refused. A
byte above `0xF` is no operation number (log 4). -/
def Obligations.UnassignedNumbersNameNoOperation : Prop :=
  (∀ (b : Byte) (rest : List Byte), b.toNat ≤ 0xA → ∃ i, decode (b :: rest) = .ok i rest) ∧
  (∀ (b : Byte) (rest : List Byte), 0xB ≤ b.toNat → b.toNat ≤ 0xF → decode (b :: rest) = .noSuchOperation b) ∧
  (∀ (b : Byte) (rest : List Byte), 0xF < b.toNat → decode (b :: rest) = .notAnOperationNumber b) ∧
  (∀ (s : State) (b : Byte) (d : Drives) (dest : Option Nat) (rest : List Line),
    s.pending = .operation b d dest :: rest → 0xB ≤ b.toNat → b.toNat ≤ 0xF →
    step s = .refused (.noSuchOperation b))

/-- Decoding an encoded operation gives it back with the bytes after it, and every sequence of bytes that decodes is the
encoding of what it decodes to, followed by the rest. -/
def Obligations.DecodeInvertsEncode : Prop :=
  (∀ (i : Instr) (rest : List Byte), decode (encode i ++ rest) = .ok i rest) ∧
  (∀ (i : Instr) (bytes rest : List Byte), decode bytes = .ok i rest → bytes = encode i ++ rest)

/-- A step runs the operation its line's number decodes to, on the ports the line has driven, and then names the result
if the line says so. An operation placed on the port values as they stand runs exactly as `exec` says. Of several pending
lines the first that may run is the one presented (R69; log 15). -/
def Obligations.StepRunsTheDecodedOperation : Prop :=
  (∀ (s : State) (op : Byte) (d : Drives) (dest : Option Nat) (rest : List Line) (i : Instr) (inp : Inputs),
    s.pending = .operation op d dest :: rest → decode [op] = .ok i [] → s.drivenInputs d = .ok inp →
    step s = nameAfter dest (exec i { s with pending := rest, inputs := inp })) ∧
  (∀ (s : State) (nbits w : Nat) (i : Instr), decodeTableWord nbits w = some i →
    step (s.withFetchWord nbits w) = exec i s) ∧
  (∀ (s : State) (line : Line) (before after : List Line), s.pending = before ++ line :: after →
    (∀ (k : Nat) (m : Line), before[k]? = some m → m.mayRun s.wires s.pending (before.take k) = false) →
    line.mayRun s.wires s.pending before = true →
    step s = runLine line { s with pending := before ++ after })

/-- R69: UNWRAP takes the triple out of a present result and has no result on an absent one; no name is assigned twice.
That a literal word gets a name is log 10. The refusals, of a name that no line assigns, of a second assignment and of
lines that all wait for each other, are log 11 and log 15. -/
def Obligations.UnwrapAndNamingLines : Prop :=
  (∀ (s : State) (dest src : Nat) (rest : List Line) (d : DF), s.pending = .unwrap dest src :: rest →
    s.wires.o.lookup src = some (some d) → s.wires.t.lookup dest = none →
    step s = .next { s with pending := rest, wires := { s.wires with t := (dest, d) :: s.wires.t } }) ∧
  (∀ (s : State) (dest src : Nat) (rest : List Line), s.pending = .unwrap dest src :: rest →
    s.wires.o.lookup src = some none → step s = .refused (.unwrapAbsent src)) ∧
  (∀ (s : State) (dest src : Nat) (rest : List Line), s.pending = .unwrap dest src :: rest →
    s.wires.o.lookup src = none → (∀ m ∈ s.pending, m.assigns ≠ some (.o src)) →
    step s = .refused (.unassignedOption src)) ∧
  (∀ (s : State) (dest src : Nat) (rest : List Line) (d v : DF), s.pending = .unwrap dest src :: rest →
    s.wires.o.lookup src = some (some d) → s.wires.t.lookup dest = some v →
    step s = .refused (.assignedTwice dest)) ∧
  (∀ (s : State) (dest : Nat) (w : Word) (rest : List Line), s.pending = .nameWord dest w :: rest →
    s.wires.f.lookup dest = none →
    step s = .next { s with pending := rest, wires := { s.wires with f := (dest, w) :: s.wires.f } }) ∧
  (∀ (s : State) (dest : Nat) (w v : Word) (rest : List Line), s.pending = .nameWord dest w :: rest →
    s.wires.f.lookup dest = some v → step s = .refused (.assignedTwice dest)) ∧
  (∀ (s : State) (op : Byte) (d : Drives) (dest : Option Nat) (rest : List Line) (i : Instr) (n lo : Nat),
    s.pending = .operation op d dest :: rest → decode [op] = .ok i [] →
    (Line.operation op d dest).waits s.wires s.pending = false →
    d.fIn = some (.name (.f n) lo) → s.wires.f.lookup n = none → step s = .refused (.unassignedWord n)) ∧
  (∀ (s : State) (op : Byte) (d : Drives) (dest : Option Nat) (rest : List Line) (i : Instr) (x : InBus) (y : NamePart)
    (lo : Nat),
    s.pending = .operation op d dest :: rest → decode [op] = .ok i [] →
    (Line.operation op d dest).waits s.wires s.pending = false →
    d.at x = some (.name y lo) → s.wires.has y.name = false →
    ∃ (x' : InBus) (y' : NamePart) (lo' : Nat), d.at x' = some (.name y' lo') ∧ s.wires.has y'.name = false ∧
      step s = .refused y'.name.unassigned) ∧
  (∀ (s : State) (op : Byte) (d : Drives) (n : Nat) (rest : List Line) (i : Instr) (inp : Inputs),
    s.pending = .operation op d (some n) :: rest → decode [op] = .ok i [] → s.drivenInputs d = .ok inp →
    s.wires.freeFor i.format n = false → step s = .refused (.assignedTwice n)) ∧
  (∀ s : State, s.pending ≠ [] →
    (∀ (k : Nat) (m : Line), s.pending[k]? = some m → m.mayRun s.wires s.pending (s.pending.take k) = false) →
    step s = .refused .linesAwaitEachOther)

/-- R32: the triple ports accept every triple. R169: any output may be wired to any input, bus by bus. A driven port takes
the literal (of a triple, log 10), the wires of the named value, or those of the output port that is wired to it directly,
read when the wiring has settled; a port that is not driven keeps its value (log 9). Which wires go onto a port of another
width is log 17. Where a loop of wiring closes (R172; log 16) the port carries its output, or, if the loop is not stable, a
free value: nothing is said of that value; and it closes nowhere but in a loop. Every line whose sources are there drives
its ports, loops included. The loop through DECOMP and RECOMP is stable for finite words (R172). -/
def Obligations.DrivesReachThePorts : Prop :=
  (∀ (s : State) (d : Drives) (placed inp : Inputs), s.placedInputs d = .ok placed → s.drivenInputs d = .ok inp →
    let o := State.outputs { s with inputs := inp }
    (∀ x : InBus,
      (d.at x = none → inp.at x = s.inputs.at x) ∧
      (∀ v, d.at x = some (.lit v) → inp.at x = v) ∧
      (∀ y lo v, d.at x = some (.name y lo) → s.wires.bits y = some v → inp.at x = wiresFrom x.width v lo) ∧
      (∀ p lo, d.at x = some (.out p lo) → inp.at x = wiresFrom x.width (o.bits p) lo ∨
        (d.closes x = true ∧ inp.at x = (State.freeInputs { s with inputs := placed } d).at x))) ∧
    (∀ n t, s.wires.t.lookup n = some t → (d.r = .named n → inp.r.toDF = t) ∧ (d.a = .named n → inp.a.toDF = t) ∧
      (d.b = .named n → inp.b.toDF = t)) ∧
    (d.r = .dOut → inp.r = o.d) ∧ (d.a = .dOut → inp.a = o.d) ∧ (d.b = .dOut → inp.b = o.d) ∧
    (d.loops = false →
      (d.fIn = some (.out .fOut 0) → inp.fIn = o.fOut) ∧ (d.fIn = some (.out .minMant 0) → inp.fIn = o.min.mant) ∧
      (d.r = .minOut → inp.r = o.min) ∧ (d.r = .maxOut → inp.r = o.max) ∧
      (d.r.sign = some (.out .lt 0) → inp.r.sign = o.lt) ∧ (d.r.sign = some (.out .ne 0) → inp.r.sign = o.ne) ∧
      (d.r.sign = some (.out .ord 1) → inp.r.sign = o.ord.extractLsb 1 1) ∧
      (d.a.sign = some (.out .dValid 0) → inp.a.sign = o.dValid) ∧
      (d.a.mant = some (.out .fOut 0) → inp.a.mant = o.fOut) ∧ (d.b.exp = some (.out .dExp 0) → inp.b.exp = o.d.exp))) ∧
  (∀ (d : Drives) (x : InBus), d.closes x = true → ∃ g, wiredFrom (d.at x) = some g ∧
    (g = x.group ∨ d.feeds x.group g = true ∨ ∃ h, d.feeds x.group h = true ∧ d.feeds h g = true)) ∧
  (∀ (s : State) (f : Word) (r a b : TriplePort),
    s.drivenInputs { fIn := some (.lit f), r := .lit r, a := .lit a, b := .lit b } =
      .ok { fIn := f, r := r, a := a, b := b }) ∧
  (∀ (s : State) (d : Drives), s.hasSources d = true →
    ∃ placed inp, s.placedInputs d = .ok placed ∧ s.drivenInputs d = .ok inp) ∧
  (∀ s : State, isFinite s.inputs.fIn = true →
    s.drivenInputs { fIn := some (.out .fOut 0), r := .dOut } = .ok { s.inputs with r := s.outputs.d }) ∧
  (∀ s : State, s.outputs.min = s.inputs.a → s.drivenInputs { a := .minOut } = .ok s.inputs) ∧
  (∀ s : State, s.outputs.min ≠ s.inputs.a →
    s.drivenInputs { a := .minOut } = .ok { s.inputs with a := (s.freeInputs { a := .minOut }).a })

/-! ### The eleven operations: result, completion and frame

Each says that the operation answers a next state, which differs from the state before in the result read and in the
model's counter of free values alone: every input port, every named wire and every pending line is unchanged. That the
result is recorded in the state is the model's form (log 14), and so is the counter (log 5). Where a docstring says
"derived", the spec marks the rule with its own mark [derived: ...]. -/

/-- R81: DECOMP of the word on f_in. -/
def Obligations.DecompSplitsItsWord : Prop :=
  ∀ s : State, exec .decomp s = .next { s with
    result := some (.optTriple (
      if (s.inputs.fIn.extractLsb 62 52).toNat = 2047 then none
      else some
        { sign := decide (s.inputs.fIn.extractLsb 63 63 = 0#1)
          exponent := (s.inputs.fIn.extractLsb 62 52).setWidth 16
          mantissa :=
            if (s.inputs.fIn.extractLsb 62 52).toNat = 0 then (s.inputs.fIn.extractLsb 51 0).setWidth 64 <<< 1
            else (s.inputs.fIn.extractLsb 51 0).setWidth 64 ||| 0x0010000000000000#64 }))
    draws := s.draws + 1 }

/-- R91: RECOMP of the triple on r_*, for every triple. -/
def Obligations.RecompRebuildsAWord : Prop :=
  ∀ s : State, exec .recomp s = .next { s with
    result := some (.word (
      (if s.operandR.sign then 0#64 else 0x8000000000000000#64) |||
      (if s.operandR.exponent.toInt ≤ 0 then 0#64 else s.operandR.exponent.setWidth 64 <<< 52) |||
      (if s.operandR.exponent.toInt ≤ 0 then (s.operandR.mantissa >>> 1) &&& 0x000FFFFFFFFFFFFF#64
        else s.operandR.mantissa &&& 0x000FFFFFFFFFFFFF#64)))
    draws := s.draws + 1 }

/-- R101: CMP of the triples on a_* and b_*, for every pair. -/
def Obligations.CmpFollowsItsThreeSteps : Prop :=
  ∀ s : State, exec .cmp s = .next { s with
    result := some (.order (
      if s.operandA.sign ≠ s.operandB.sign then
        if s.operandA.sign = false then .less else .greater
      else if s.operandA.sign = true then
        if cmpS s.operandA.exponent s.operandB.exponent ≠ .equal then
          cmpS s.operandA.exponent s.operandB.exponent
        else cmpU s.operandA.mantissa s.operandB.mantissa
      else
        if cmpS s.operandA.exponent s.operandB.exponent ≠ .equal then
          revOrd (cmpS s.operandA.exponent s.operandB.exponent)
        else revOrd (cmpU s.operandA.mantissa s.operandB.mantissa)))
    draws := s.draws + 1 }

/-- R111 (derived): LT is `CMP = LESS`, on the port `lt`, with the rule's corner cases and its example (-4.56 and
1.23). -/
def Obligations.LtIsCmpLess : Prop :=
  (∀ s : State, exec .lt s = .next { s with
    result := some (.bool (decide (compareDF s.operandA s.operandB = .less))), draws := s.draws + 1 }) ∧
  (∀ s : State, s.outputs.lt = 1#1 ↔ compareDF s.operandA s.operandB = .less) ∧
  decode [0x3#8] = .ok .lt [] ∧
  lessThan negZero posZero = true ∧ lessThan posZero negZero = false ∧ (∀ a, lessThan a a = false) ∧
  lessThan ⟨0x00123D70A3D70A3D#64, 1025#16, false⟩ ⟨0x0013AE147AE147AE#64, 1023#16, true⟩ = true

/-- R112 (derived): LE is `CMP != GREATER`, the same as LT or EQ. -/
def Obligations.LeIsCmpNotGreater : Prop :=
  (∀ s : State, exec .le s = .next { s with
    result := some (.bool (decide (compareDF s.operandA s.operandB ≠ .greater))), draws := s.draws + 1 }) ∧
  (∀ s : State, s.outputs.le = 1#1 ↔ compareDF s.operandA s.operandB ≠ .greater) ∧
  (∀ a b, lessOrEqual a b = (lessThan a b || equalDF a b)) ∧
  decode [0x4#8] = .ok .le [] ∧
  (∀ a, lessOrEqual a a = true) ∧ lessOrEqual negZero posZero = true ∧ lessOrEqual posZero negZero = false ∧
  lessOrEqual ⟨0x0019000000000000#64, 1029#16, true⟩ ⟨0x0019000000000000#64, 1029#16, true⟩ = true

/-- R113 (derived): GT is `CMP = GREATER`, the same as LT with the operands exchanged. -/
def Obligations.GtIsCmpGreater : Prop :=
  (∀ s : State, exec .gt s = .next { s with
    result := some (.bool (decide (compareDF s.operandA s.operandB = .greater))), draws := s.draws + 1 }) ∧
  (∀ s : State, s.outputs.gt = 1#1 ↔ compareDF s.operandA s.operandB = .greater) ∧
  (∀ a b, greaterThan a b = lessThan b a) ∧
  decode [0x5#8] = .ok .gt [] ∧
  greaterThan posZero negZero = true ∧ (∀ a, greaterThan a a = false) ∧
  greaterThan ⟨0x00134A456D5CFAAD#64, 1033#16, true⟩ ⟨0x0019000000000000#64, 1029#16, true⟩ = true

/-- R114 (derived): GE is `CMP != LESS`, the same as LE with the operands exchanged. -/
def Obligations.GeIsCmpNotLess : Prop :=
  (∀ s : State, exec .ge s = .next { s with
    result := some (.bool (decide (compareDF s.operandA s.operandB ≠ .less))), draws := s.draws + 1 }) ∧
  (∀ s : State, s.outputs.ge = 1#1 ↔ compareDF s.operandA s.operandB ≠ .less) ∧
  (∀ a b, greaterOrEqual a b = lessOrEqual b a) ∧
  decode [0x6#8] = .ok .ge [] ∧
  (∀ a, greaterOrEqual a a = true) ∧ greaterOrEqual negZero posZero = false ∧
  greaterOrEqual ⟨0x001426FE718A86D7#64, 1013#16, false⟩ ⟨0x0019000000000000#64, 1029#16, false⟩ = true

/-- R115: EQ is equality of the three fields, which is `CMP = EQUAL`, and for two constructed triples equality of the
words they came from. -/
def Obligations.EqIsFieldwiseEquality : Prop :=
  (∀ s : State, exec .eq s = .next { s with
    result := some (.bool (decide (s.operandA.sign = s.operandB.sign ∧ s.operandA.exponent = s.operandB.exponent ∧
      s.operandA.mantissa = s.operandB.mantissa))), draws := s.draws + 1 }) ∧
  (∀ s : State, s.outputs.eq = 1#1 ↔ s.operandA = s.operandB) ∧
  (∀ a b, equalDF a b = true ↔ compareDF a b = .equal) ∧
  (∀ v w a b, decompose v = some a → decompose w = some b → (equalDF a b = true ↔ v = w)) ∧
  decode [0x7#8] = .ok .eq [] ∧
  equalDF posZero negZero = false ∧ (∀ a, equalDF a a = true) ∧
  equalDF ⟨0x0019000000000000#64, 1029#16, true⟩ ⟨0x0019000000000000#64, 1029#16, false⟩ = false

/-- R116 (derived): NE is the negation of EQ, which is `CMP != EQUAL`. -/
def Obligations.NeIsNotEq : Prop :=
  (∀ s : State, exec .ne s = .next { s with
    result := some (.bool (!equalDF s.operandA s.operandB)), draws := s.draws + 1 }) ∧
  (∀ s : State, s.outputs.ne = 1#1 ↔ s.operandA ≠ s.operandB) ∧
  (∀ a b, notEqualDF a b = true ↔ compareDF a b ≠ .equal) ∧
  decode [0x8#8] = .ok .ne [] ∧
  notEqualDF posZero negZero = true ∧ (∀ a, notEqualDF a a = false) ∧
  notEqualDF ⟨0#64, 0#16, true⟩ ⟨0x0013AE147AE147AE#64, 1023#16, true⟩ = true

/-- R117: MIN is the operand ordered first, bit for bit one of the two. -/
def Obligations.MinIsTheOperandOrderedFirst : Prop :=
  (∀ s : State, exec .min s = .next { s with
    result := some (.triple (if compareDF s.operandA s.operandB = .greater then s.operandB else s.operandA))
    draws := s.draws + 1 }) ∧
  (∀ s : State, s.outputs.min.toDF =
    if compareDF s.operandA s.operandB = .greater then s.operandB else s.operandA) ∧
  (∀ a b, minDF a b = a ∨ minDF a b = b) ∧
  (∀ a b, compareDF a b = .equal → a = b) ∧
  (∀ a b, minDF a b = minDF b a) ∧
  decode [0x9#8] = .ok .min [] ∧
  minDF posZero negZero = negZero ∧ minDF negZero posZero = negZero ∧ (∀ a, minDF a a = a) ∧
  minDF ⟨0x0013AE147AE147AE#64, 1023#16, true⟩ ⟨0x00123D70A3D70A3D#64, 1025#16, false⟩ =
    ⟨0x00123D70A3D70A3D#64, 1025#16, false⟩

/-- R118: MAX is the operand ordered last, and MIN and MAX together are the two operands. -/
def Obligations.MaxIsTheOperandOrderedLast : Prop :=
  (∀ s : State, exec .max s = .next { s with
    result := some (.triple (if compareDF s.operandA s.operandB = .greater then s.operandA else s.operandB))
    draws := s.draws + 1 }) ∧
  (∀ s : State, s.outputs.max.toDF =
    if compareDF s.operandA s.operandB = .greater then s.operandA else s.operandB) ∧
  (∀ a b, maxDF a b = a ∨ maxDF a b = b) ∧
  (∀ a b, compareDF a b = .equal → a = b) ∧
  (∀ a b, [minDF a b, maxDF a b].Perm [a, b]) ∧
  (∀ a b, lessOrEqual (minDF a b) (maxDF a b) = true) ∧
  decode [0xA#8] = .ok .max [] ∧
  maxDF posZero negZero = posZero ∧ maxDF negZero posZero = posZero ∧ (∀ a, maxDF a a = a) ∧
  maxDF ⟨0x0013AE147AE147AE#64, 1023#16, true⟩ ⟨0x00123D70A3D70A3D#64, 1025#16, false⟩ =
    ⟨0x0013AE147AE147AE#64, 1023#16, true⟩

/-- R65: the result of every operation has the type its format gives it. -/
def Obligations.ResultsFitTheirFormats : Prop :=
  ∀ (i : Instr) (s t : State), exec i s = .next t → ∃ r, t.result = some r ∧ r.fits i.format = true

/-! ### Construction -/

/-- R14: the comparisons of exponents and mantissas are comparisons of integers, `false` is less than `true`, and `rev`
exchanges LESS and GREATER. Step 1 of CMP is the comparison of the signs. -/
def Obligations.FieldComparisonsAreIntegerComparisons : Prop :=
  (∀ a b : BitVec 16, (cmpS a b = .less ↔ a.toInt < b.toInt) ∧ (cmpS a b = .equal ↔ a.toInt = b.toInt) ∧
    (cmpS a b = .greater ↔ b.toInt < a.toInt)) ∧
  (∀ a b : BitVec 64, (cmpU a b = .less ↔ a.toNat < b.toNat) ∧ (cmpU a b = .equal ↔ a.toNat = b.toNat) ∧
    (cmpU a b = .greater ↔ b.toNat < a.toNat)) ∧
  cmpB false true = .less ∧ cmpB true false = .greater ∧ (∀ a, cmpB a a = .equal) ∧
  (∀ a b : DF, a.sign ≠ b.sign → compareDF a b = cmpB a.sign b.sign) ∧
  (∀ o : Ord3, revOrd o = match o with | .less => .greater | .equal => .equal | .greater => .less)

/-- R28: the mantissa of a constructed triple, as an integer. -/
def Obligations.MantissaOfConstructedTriple : Prop :=
  ∀ w d, decompose w = some d →
    ((efield w).toNat ≠ 0 → d.mantissa.toNat = 2 ^ 52 + (frac w).toNat ∧ 2 ^ 52 ≤ d.mantissa.toNat ∧
      d.mantissa.toNat < 2 ^ 53) ∧
    ((efield w).toNat = 0 → d.mantissa.toNat = 2 * (frac w).toNat ∧ d.mantissa.toNat % 2 = 0 ∧
      d.mantissa.toNat ≤ 2 ^ 53 - 2) ∧
    d.mantissa.extractLsb 63 53 = 0#11

/-- R29: the exponent of a constructed triple is the raw field, without the bias subtracted. -/
def Obligations.ExponentOfConstructedTriple : Prop :=
  ∀ w d, decompose w = some d →
    d.exponent = (efield w).setWidth 16 ∧ d.exponent.toInt = ((efield w).toNat : ℤ) ∧
    0 ≤ d.exponent.toInt ∧ d.exponent.toInt ≤ 2046 ∧ d.exponent.extractLsb 15 11 = 0#5 ∧
    (d.exponent = 0#16 ↔ (efield w).toNat = 0)

/-- R83 (derived): d_valid, and when it is 1 the data outputs, by the port equations. Nothing is said of the data
outputs when d_valid is 0 (R62). -/
def Obligations.DecompPortEquations : Prop :=
  ∀ s : State,
    (s.outputs.dValid = 1#1 ↔ (s.inputs.fIn.extractLsb 62 52).toNat ≠ 2047) ∧
    (s.outputs.dValid = 1#1 →
      s.outputs.d.sign = ~~~(s.inputs.fIn.extractLsb 63 63) ∧
      s.outputs.d.exp = 0b00000#5 ++ s.inputs.fIn.extractLsb 62 52 ∧
      s.outputs.d.mant =
        (if s.inputs.fIn.extractLsb 62 52 = 0#11 then 0#11 ++ s.inputs.fIn.extractLsb 51 0 ++ 0#1
          else 0#11 ++ 1#1 ++ s.inputs.fIn.extractLsb 51 0) ∧
      decompose s.inputs.fIn = some s.outputs.d.toDF)

/-- R84 (derived): facts about every triple that construction gives. -/
def Obligations.ConstructedTriplesAreWellFormed : Prop :=
  (∀ w d, decompose w = some d →
    d.wf = true ∧
    (0 ≤ d.exponent.toInt ∧ d.exponent.toInt ≤ 2046 ∧ d.exponent.extractLsb 15 11 = 0#5) ∧
    d.mantissa.extractLsb 63 53 = 0#11 ∧
    (d.exponent = 0#16 → d.mantissa.extractLsb 0 0 = 0#1 ∧ d.mantissa.toNat ≤ 2 ^ 53 - 2) ∧
    (d.exponent ≠ 0#16 → d.mantissa.extractLsb 52 52 = 1#1 ∧ 2 ^ 52 ≤ d.mantissa.toNat ∧ d.mantissa.toNat < 2 ^ 53) ∧
    (d.sign = true ↔ w.extractLsb 63 63 = 0#1)) ∧
  (∀ v w d, decompose v = some d → decompose w = some d → v = w)

/-- R125: DECOMP rejects exactly the words whose exponent field is 2047. -/
def Obligations.DecompRejectsExactlyTheNonFinite : Prop :=
  ∀ w, decompose w = none ↔ (w.extractLsb 62 52).toNat = 2047

/-! ### Reconstruction -/

/-- R94: f_out for every triple, by the port equations, and the rule's consequences (a) to (d) for triples that are not
well-formed. -/
def Obligations.RecompPortEquations : Prop :=
  (∀ s : State,
    s.outputs.fOut.extractLsb 63 63 = (~~~s.inputs.r.sign |||
      (if 0 < s.inputs.r.exp.toInt then s.inputs.r.exp.extractLsb 11 11 else 0#1)) ∧
    s.outputs.fOut.extractLsb 62 52 = (if 0 < s.inputs.r.exp.toInt then s.inputs.r.exp.extractLsb 10 0 else 0#11) ∧
    s.outputs.fOut.extractLsb 51 0 =
      (if 0 < s.inputs.r.exp.toInt then s.inputs.r.mant.extractLsb 51 0 else s.inputs.r.mant.extractLsb 52 1)) ∧
  (∀ d : DF, d.exponent.toInt < 0 → recompose d = recompose { d with exponent := 0#16 }) ∧
  (∀ d : DF, d.exponent.toInt = 2047 → (efield (recompose d)).toNat = 2047) ∧
  (∀ d : DF, 2048 ≤ d.exponent.toInt →
    efield (recompose d) = d.exponent.extractLsb 10 0 ∧
    (sbit (recompose d) = 1#1 ↔ (d.sign = false ∨ d.exponent.extractLsb 11 11 = 1#1))) ∧
  (∀ (d : DF) (m : BitVec 64), 0 < d.exponent.toInt → m.extractLsb 51 0 = d.mantissa.extractLsb 51 0 →
    recompose { d with mantissa := m } = recompose d) ∧
  (∀ (d : DF) (m : BitVec 64), d.exponent.toInt ≤ 0 → m.extractLsb 52 1 = d.mantissa.extractLsb 52 1 →
    recompose { d with mantissa := m } = recompose d) ∧
  (∀ d e : DF, d.wf = true → e.wf = true → recompose d = recompose e → d = e)

/-- R92 (derived): RECOMP on well-formed input. -/
def Obligations.RecompOnWellFormedInput : Prop :=
  ∀ d : DF, d.wf = true →
    (d.exponent = 0#16 →
      recompose d = (~~~boolBit d.sign ++ 0#11 ++ d.mantissa.extractLsb 52 1 : BitVec 64) ∧
      d.mantissa.extractLsb 0 0 = 0#1) ∧
    (d.exponent ≠ 0#16 →
      recompose d = (~~~boolBit d.sign ++ d.exponent.extractLsb 10 0 ++ d.mantissa.extractLsb 51 0 : BitVec 64) ∧
      d.mantissa.extractLsb 52 52 = 1#1) ∧
    decompose (recompose d) = some d ∧
    (efield (recompose d)).toNat ≤ 2046

/-- From a state whose triples all come from construction, RECOMP answers a finite word, and DECOMP of that word is the
triple that was on r_*. -/
def Obligations.RecompOfConstructedTripleIsFinite : Prop :=
  ∀ s : State, s.constructed = true → ∃ w t, exec .recomp s = .next t ∧ t.result = some (.word w) ∧
    isFinite w = true ∧ decompose w = some s.operandR

/-! ### Round trips -/

/-- R127: word to word, all 64 bits. -/
def Obligations.RoundTripFromWord : Prop :=
  ∀ w d, decompose w = some d → recompose d = w

/-- R128 (derived): triple to triple for well-formed triples, and how it fails for every other triple. -/
def Obligations.RoundTripFromTriple : Prop :=
  (∀ d : DF, d.wf = true → decompose (recompose d) = some d) ∧
  (∀ d : DF, d.wf = false →
    ((efield (recompose d)).toNat = 2047 ∧ decompose (recompose d) = none) ∨
    (∃ e : DF, decompose (recompose d) = some e ∧ e.wf = true ∧ e ≠ d))

/-- R126 (derived): DECOMP is a bijection from the finite words, of which there are `2^64 - 2^53`, onto the
well-formed triples, with RECOMP its inverse. -/
def Obligations.DecompIsABijection : Prop :=
  Set.BijOn decompose {w : Word | isFinite w = true} (some '' {d : DF | d.wf = true}) ∧
  Set.BijOn recompose {d : DF | d.wf = true} {w : Word | isFinite w = true} ∧
  (∀ w : Word, isFinite w = true → (decompose w).map recompose = some w) ∧
  (∀ d : DF, d.wf = true → decompose (recompose d) = some d) ∧
  Nat.card {w : Word // isFinite w = true} = 2 ^ 64 - 2 ^ 53

/-- R129: the words on both sides of the smallest normal magnitude round-trip. -/
def Obligations.BoundaryWordsRoundTrip : Prop :=
  ∀ w ∈ ([0x000FFFFFFFFFFFFF#64, 0x0010000000000000#64, 0x0010000000000001#64, 0x800FFFFFFFFFFFFF#64,
      0x8010000000000000#64, 0x8010000000000001#64] : List Word),
    roundtrip w = some w

/-! ### The order -/

/-- R103 (derived): `ord` by the port equations, exactly one of which holds for every pair of inputs. -/
def Obligations.CmpPortEquations : Prop :=
  ∀ s : State,
    (s.outputs.ord = 0b01#2 ↔ greaterEquation s.inputs.a s.inputs.b) ∧
    (s.outputs.ord = 0b11#2 ↔ lessEquation s.inputs.a s.inputs.b) ∧
    (s.outputs.ord = 0b00#2 ↔ equalEquation s.inputs.a s.inputs.b) ∧
    ((greaterEquation s.inputs.a s.inputs.b ∧ ¬lessEquation s.inputs.a s.inputs.b ∧ ¬equalEquation s.inputs.a s.inputs.b) ∨
      (¬greaterEquation s.inputs.a s.inputs.b ∧ lessEquation s.inputs.a s.inputs.b ∧
        ¬equalEquation s.inputs.a s.inputs.b) ∨
      (¬greaterEquation s.inputs.a s.inputs.b ∧ ¬lessEquation s.inputs.a s.inputs.b ∧
        equalEquation s.inputs.a s.inputs.b))

/-- R63: the code of `ord` is the two's complement number -1, 0 or 1; `0b10` is never driven and stands for no order. -/
def Obligations.OrdCodeIsThreeWay : Prop :=
  (ordCode .less = 0b11#2 ∧ (ordCode .less).toInt = -1) ∧
  (ordCode .equal = 0b00#2 ∧ (ordCode .equal).toInt = 0) ∧
  (ordCode .greater = 0b01#2 ∧ (ordCode .greater).toInt = 1) ∧
  (∀ s : State, s.outputs.ord ≠ 0b10#2) ∧
  (∀ o, ordOfCode (ordCode o) = some o) ∧ ordOfCode 0b10#2 = none

/-- R119 (derived): the relations among the comparator's outputs, and what exchanging the operands does. -/
def Obligations.ComparatorOutputsAgree : Prop :=
  ∀ s : State,
    let o := s.outputs
    let x := State.outputs { s with inputs := { s.inputs with a := s.inputs.b, b := s.inputs.a } }
    ((o.lt = 1#1 ∧ o.eq = 0#1 ∧ o.gt = 0#1) ∨ (o.lt = 0#1 ∧ o.eq = 1#1 ∧ o.gt = 0#1) ∨
      (o.lt = 0#1 ∧ o.eq = 0#1 ∧ o.gt = 1#1)) ∧
    o.le = (o.lt ||| o.eq) ∧ o.ge = (o.gt ||| o.eq) ∧ o.ne = (o.lt ||| o.gt) ∧
    (o.ord = 0b11#2 ↔ o.lt = 1#1) ∧ (o.ord = 0b00#2 ↔ o.eq = 1#1) ∧ (o.ord = 0b01#2 ↔ o.gt = 1#1) ∧
    x.lt = o.gt ∧ x.gt = o.lt ∧ x.le = o.ge ∧ x.ge = o.le ∧ x.eq = o.eq ∧ x.ne = o.ne ∧
    x.min = o.min ∧ x.max = o.max

/-- R130: for all triples, well-formed or not. -/
def Obligations.CmpIsAntisymmetric : Prop :=
  (∀ a b, compareDF b a = revOrd (compareDF a b)) ∧
  (∀ a b, compareDF a b = .equal ↔ a = b) ∧
  (∀ a b, (lessThan a b = true ∧ equalDF a b = false ∧ greaterThan a b = false) ∨
    (lessThan a b = false ∧ equalDF a b = true ∧ greaterThan a b = false) ∨
    (lessThan a b = false ∧ equalDF a b = false ∧ greaterThan a b = true))

/-- R131 (derived): for all triples, well-formed or not. -/
def Obligations.CmpIsTransitive : Prop :=
  ∀ a b c, compareDF a b ≠ .greater → compareDF b c ≠ .greater →
    compareDF a c ≠ .greater ∧ (compareDF a b = .less ∨ compareDF b c = .less → compareDF a c = .less)

/-- R132: LE is a total order and LT a strict total order on the set of all triples. -/
def Obligations.LeAndLtAreTotalOrders : Prop :=
  (∀ a b, compareDF a b = .less ∨ compareDF a b = .equal ∨ compareDF a b = .greater) ∧
  (∀ a, lessOrEqual a a = true) ∧
  (∀ a b, lessOrEqual a b = true ∨ lessOrEqual b a = true) ∧
  (∀ a b, lessOrEqual a b = true → lessOrEqual b a = true → a = b) ∧
  (∀ a b c, lessOrEqual a b = true → lessOrEqual b c = true → lessOrEqual a c = true) ∧
  (∀ a, lessThan a a = false) ∧
  (∀ a b c, lessThan a b = true → lessThan b c = true → lessThan a c = true) ∧
  (∀ a b, a ≠ b → lessThan a b = true ∨ lessThan b a = true)

/-- R105 (derived): corner cases of CMP: the zeros, -0.0 the greatest negative and +0.0 the least non-negative value,
equal signs decided by the exponent first, and opposite signs by nothing but the sign. -/
def Obligations.CmpCornerCases : Prop :=
  compareDF negZero posZero = .less ∧ compareDF posZero negZero = .greater ∧
  (∀ a b, compareDF a b = .equal ↔ a.sign = b.sign ∧ a.exponent = b.exponent ∧ a.mantissa = b.mantissa) ∧
  (∀ x : DF, x.wf = true → x.sign = false → x ≠ negZero → compareDF x negZero = .less) ∧
  (∀ y : DF, y.wf = true → y.sign = true → y ≠ posZero → compareDF posZero y = .less) ∧
  (∀ a b : DF, a.sign = true → b.sign = true → a.exponent.toInt < b.exponent.toInt → compareDF a b = .less) ∧
  (∀ a b : DF, a.sign = false → b.sign = false → a.exponent.toInt < b.exponent.toInt → compareDF a b = .greater) ∧
  (∀ a b : DF, a.sign = false → b.sign = false → a.exponent = b.exponent → a.mantissa.toNat < b.mantissa.toNat →
    compareDF a b = .greater) ∧
  (∀ a b : DF, a.sign = false → b.sign = true → compareDF a b = .less)

/-- R57 (general knowledge, G2) and R58 (derived): the number a constructed triple stands for is that of its word, and
both lines of R58 are one expression. -/
def Obligations.ValueOfTripleIsValueOfWord : Prop :=
  (∀ w d, decompose w = some d → valWord w = some (valDF d)) ∧
  (∀ d : DF, d.wf = true → d.exponent.toInt = 0 →
    valDF d = (if d.sign then 1 else -1) * (d.mantissa.toNat : ℚ) * (2 : ℚ) ^ (-1075 : ℤ)) ∧
  (∀ d : DF, d.wf = true → 0 ≤ d.exponent.toInt →
    valDF d = (if d.sign then 1 else -1) * (d.mantissa.toNat : ℚ) * (2 : ℚ) ^ (d.exponent.toInt - 1075))

/-- R133, with the values of R57 (general knowledge, G2): on well-formed triples the order is that of the real
numbers, but for the two zeros. -/
def Obligations.CmpIsRealNumberOrder : Prop :=
  ∀ a b : DF, a.wf = true → b.wf = true →
    (compareDF a b = .less ↔ valDF a < valDF b ∨ (a = negZero ∧ b = posZero)) ∧
    (compareDF a b = .greater ↔ valDF b < valDF a ∨ (a = posZero ∧ b = negZero)) ∧
    (compareDF a b = .equal ↔ a = b)

/-- R134 (derived): on finite words the order is that of an integer key of the word. -/
def Obligations.CmpIsKeyOrder : Prop :=
  ∀ v w a b, decompose v = some a → decompose w = some b →
    (compareDF a b = .less ↔ wordKey v < wordKey w) ∧
    (compareDF a b = .equal ↔ wordKey v = wordKey w) ∧
    (compareDF a b = .greater ↔ wordKey w < wordKey v)

/-- R135, with native comparison read as comparison of the values (G3): LT, GT and EQ agree with it on every pair of
finite words but the two zeros. -/
def Obligations.RelationsAgreeWithNativeComparison : Prop :=
  ∀ v w a b x y, decompose v = some a → decompose w = some b → valWord v = some x → valWord w = some y →
    (¬(a = negZero ∧ b = posZero) → ¬(a = posZero ∧ b = negZero) →
      ((lessThan a b = true ↔ x < y) ∧ (greaterThan a b = true ↔ y < x) ∧ (equalDF a b = true ↔ x = y))) ∧
    (a = negZero → b = posZero → x = y ∧ lessThan a b = true ∧ equalDF a b = false) ∧
    (a = posZero → b = negZero → x = y ∧ greaterThan a b = true ∧ equalDF a b = false)

/-- R61: the packed form loses nothing, and orders non-negative well-formed triples as CMP does. -/
def Obligations.PackedTripleLayout : Prop :=
  (∀ d : DF, (packDF d).extractLsb 80 80 = boolBit d.sign ∧ (packDF d).extractLsb 79 64 = d.exponent ∧
    (packDF d).extractLsb 63 0 = d.mantissa) ∧
  (∀ d, unpackDF (packDF d) = d) ∧ (∀ x, packDF (unpackDF x) = x) ∧
  (∀ a b : DF, a.wf = true → b.wf = true → a.sign = true → b.sign = true →
    (compareDF a b = .less ↔ (packDF a).toNat < (packDF b).toNat) ∧
    (compareDF a b = .greater ↔ (packDF b).toNat < (packDF a).toNat))

/-! ### Sorting and pseudo-operations -/

/-- R120: what sorted means, and that the sorted permutation of a sequence is unique. Its sample is in
`SampleSequenceSorts`. -/
def Obligations.SortedPermutationIsUnique : Prop :=
  (∀ l : List DF, isSorted l = true ↔
    ∀ (k : Nat) (x y : DF), l[k]? = some x → l[k + 1]? = some y → lessOrEqual x y = true) ∧
  (∀ l l₁ l₂ : List DF, l₁.Perm l → l₂.Perm l → isSorted l₁ = true → isSorted l₂ = true → l₁ = l₂)

/-- R136: the triples of [1.23, -4.56, 0.0, 1234.5678, -0.00123, 100.0, -100.0], and their sorted order. -/
def Obligations.SampleSequenceSorts : Prop :=
  ∃ l l' : List DF,
    ([0x3FF3AE147AE147AE#64, 0xC0123D70A3D70A3D#64, 0x0000000000000000#64, 0x40934A456D5CFAAD#64,
      0xBF5426FE718A86D7#64, 0x4059000000000000#64, 0xC059000000000000#64] : List Word).map decompose = l.map some ∧
    ([0xC059000000000000#64, 0xC0123D70A3D70A3D#64, 0xBF5426FE718A86D7#64, 0x0000000000000000#64,
      0x3FF3AE147AE147AE#64, 0x4059000000000000#64, 0x40934A456D5CFAAD#64] : List Word).map decompose = l'.map some ∧
    l'.Perm l ∧ isSorted l' = true

/-- The three compare-exchanges of spec/95_test_vectors.md section 3 sort any three triples. -/
def Obligations.ThreeStepNetworkSorts : Prop :=
  ∀ t₁ t₂ t₃ : DF, isSorted (sortThree t₁ t₂ t₃) = true ∧ (sortThree t₁ t₂ t₃).Perm [t₁, t₂, t₃]

/-- R121: CMPF of two finite words is CMP of their triples, and of a rejected word it has no result. R70: its five lines,
run from any state in which their names are free, name that order, and stop at the UNWRAP of a rejected word. -/
def Obligations.CmpfHasNoResultOnRejectedWords : Prop :=
  (∀ v w : Word,
    ((decompose v = none ∨ decompose w = none) → compareWords v w = none) ∧
    (∀ a b, decompose v = some a → decompose w = some b → compareWords v w = some (compareDF a b)) ∧
    (isFinite v = true → isFinite w = true → ∃ c, compareWords v w = some c)) ∧
  (∀ (s : State) (c f1 f2 o1 o2 t1 t2 : Nat) (v w : Word) (rest : List Line),
    s.pending = linesCompareWords c f1 f2 o1 o2 t1 t2 ++ rest →
    s.wires.f.lookup f1 = some v → s.wires.f.lookup f2 = some w →
    s.wires.o.lookup o1 = none → s.wires.o.lookup o2 = none → o1 ≠ o2 →
    s.wires.t.lookup t1 = none → s.wires.t.lookup t2 = none → t1 ≠ t2 → s.wires.c.lookup c = none →
    (isFinite v = true → isFinite w = true → ∃ t k, runSteps 5 s = .next t ∧ compareWords v w = some k ∧
      t.wires.c.lookup c = some k ∧ t.pending = rest) ∧
    (isFinite v = false → runSteps 3 s = .refused (.unwrapAbsent o1)) ∧
    (isFinite v = true → isFinite w = false → runSteps 4 s = .refused (.unwrapAbsent o2)))

/-- R70: the three lines of ROUNDTRIP, run from any state in which their names are free, give the name `f<f2>` the word
`f<f1>` back, for every finite word. So does the one line that wires d_* to r_* directly (R169). -/
def Obligations.RoundtripLinesGiveTheWordBack : Prop :=
  (∀ (s : State) (f2 f1 o t : Nat) (w : Word) (rest : List Line),
    s.pending = linesRoundtrip f2 f1 o t ++ rest → s.wires.f.lookup f1 = some w → isFinite w = true →
    s.wires.f.lookup f2 = none → s.wires.o.lookup o = none → s.wires.t.lookup t = none →
    ∃ s₁ s₂ s₃, step s = .next s₁ ∧ step s₁ = .next s₂ ∧ step s₂ = .next s₃ ∧
      s₃.wires.f.lookup f2 = some w ∧ s₃.pending = rest) ∧
  (∀ (s : State) (f2 f1 : Nat) (w : Word) (rest : List Line),
    s.pending = .operation 0x1#8 { fIn := some (.name (.f f1) 0), r := .dOut } (some f2) :: rest →
    s.wires.f.lookup f1 = some w → isFinite w = true → s.wires.f.lookup f2 = none →
    ∃ s₁, step s = .next s₁ ∧ s₁.wires.f.lookup f2 = some w ∧ s₁.pending = rest)

/-- R69 and R147: for a word that DECOMP rejects, the same lines have no result after the first. -/
def Obligations.RoundtripLinesStopOnRejectedWord : Prop :=
  ∀ (s : State) (f2 f1 o t : Nat) (w : Word) (rest : List Line),
    s.pending = linesRoundtrip f2 f1 o t ++ rest → s.wires.f.lookup f1 = some w → isFinite w = false →
    s.wires.o.lookup o = none →
    ∃ s₁, step s = .next s₁ ∧ s₁.result = some (.optTriple none) ∧ s₁.outputs.dValid = 0#1 ∧
      step s₁ = .refused (.unwrapAbsent o)

/-- R70: the two lines of CSWAP name the operand ordered first and the operand ordered last. -/
def Obligations.CswapLinesOrderTwoTriples : Prop :=
  ∀ (s : State) (tl th t1 t2 : Nat) (a b : DF) (rest : List Line),
    s.pending = linesCswap tl th t1 t2 ++ rest → s.wires.t.lookup t1 = some a → s.wires.t.lookup t2 = some b →
    s.wires.t.lookup tl = none → s.wires.t.lookup th = none → tl ≠ th →
    ∃ s₁ s₂ x y, step s = .next s₁ ∧ step s₁ = .next s₂ ∧
      s₂.wires.t.lookup tl = some x ∧ s₂.wires.t.lookup th = some y ∧ s₂.pending = rest ∧
      lessOrEqual x y = true ∧ [x, y].Perm [a, b]

/-! ### Whole-machine rules -/

/-- R22: the outputs of a group are functions of the group's own inputs. (d_* of an absent result are free values, which
depend on the count of evaluations as well; log 5.) -/
def Obligations.PortGroupsAreIndependent : Prop :=
  (∀ s t : State, s.inputs.fIn = t.inputs.fIn → s.outputs.dValid = t.outputs.dValid ∧
    (s.outputs.dValid = 1#1 → s.outputs.d = t.outputs.d) ∧ (s.draws = t.draws → s.outputs.d = t.outputs.d)) ∧
  (∀ s t : State, s.inputs.r = t.inputs.r → s.outputs.fOut = t.outputs.fOut) ∧
  (∀ s t : State, s.inputs.a = t.inputs.a → s.inputs.b = t.inputs.b →
    s.outputs.ord = t.outputs.ord ∧ s.outputs.lt = t.outputs.lt ∧ s.outputs.le = t.outputs.le ∧
    s.outputs.gt = t.outputs.gt ∧ s.outputs.ge = t.outputs.ge ∧ s.outputs.eq = t.outputs.eq ∧
    s.outputs.ne = t.outputs.ne ∧ s.outputs.min = t.outputs.min ∧ s.outputs.max = t.outputs.max)

/-- R137 and R48: no operation changes what any operation answers, itself included, so operations may be evaluated any
number of times and in any order. R169: nor does wiring outputs to inputs: what an operation answers on ports that the
line drives, directly or through wires, is a function of the names the line reads (and, if it reads an absent result's
data outputs, of the count of evaluations; log 5). R69: two lines of the notation give every name the same value whichever of them is
listed first, also where one reads the name the other assigns. -/
def Obligations.OperationsDoNotAffectEachOther : Prop :=
  (∀ (i j : Instr) (s t : State), exec i s = .next t →
    resultAfter (exec j t) = resultAfter (exec j s) ∧ (resultAfter (exec j s)).isSome = true) ∧
  (∀ (s s' : State) (op : Byte) (d : Drives) (dest : Option Nat) (i : Instr) (inp inp' : Inputs),
    decode [op] = .ok i [] → (Line.operation op d dest).readsPorts = false → s.draws = s'.draws →
    (∀ nm ∈ d.names, s.wires.agreeAt s'.wires nm) → s.drivenInputs d = .ok inp → s'.drivenInputs d = .ok inp' →
    resultAfter (exec i { s with inputs := inp }) = resultAfter (exec i { s' with inputs := inp' })) ∧
  (∀ (s t : State) (l₁ l₂ : Line) (rest : List Line), l₁.inNotation = true → l₂.inNotation = true →
    (∀ nm ∈ l₁.reads, s.wires.has nm = true) →
    (∀ nm ∈ l₂.reads, s.wires.has nm = true ∨ l₁.assigns = some nm) →
    runSteps 2 { s with pending := l₁ :: l₂ :: rest } = .next t →
    ∃ u, runSteps 2 { s with pending := l₂ :: l₁ :: rest } = .next u ∧ u.pending = t.pending ∧
      u.wires.sameNames t.wires)

/-- R146: every operation answers a next state, and no step is a fault. -/
def Obligations.NothingFaults : Prop :=
  (∀ (i : Instr) (s : State), ∃ t, exec i s = .next t) ∧ (∀ (s : State) (e : Fault), step s ≠ .fault e)

/-- A line of an assigned operation that is the first that may run (log 15), whose sources are there and whose name is
free always runs, whatever its wiring and whatever the values on its ports, delivers that operation's result on the driven
ports, gives it the name, and leaves the other lines. -/
def Obligations.PresentedOperationCompletes : Prop :=
  ∀ (s : State) (op : Byte) (d : Drives) (dest : Option Nat) (before after : List Line) (i : Instr),
    s.pending = before ++ .operation op d dest :: after →
    (∀ (k : Nat) (m : Line), before[k]? = some m → m.mayRun s.wires s.pending (before.take k) = false) →
    (Line.operation op d dest).mayRun s.wires s.pending before = true →
    decode [op] = .ok i [] → s.hasSources d = true →
    (∀ n, dest = some n → s.wires.freeFor i.format n = true) →
    ∃ inp t, s.drivenInputs d = .ok inp ∧ step s = .next t ∧ t.pending = before ++ after ∧ t.inputs = inp ∧
      t.result = resultAfter (exec i { s with inputs := inp }) ∧ (dest = none → t.wires = s.wires) ∧
      (∀ n r, dest = some n → t.result = some r → s.wires.assignResult n r = some t.wires)

/-- R31 and R32: if every triple in the state comes from construction and the pending lines bring in no other, a step
keeps it so. (A line that closes a loop at an exponent or a mantissa may bring in another, where the loop is not stable;
log 16.) -/
def Obligations.StepsKeepTriplesConstructed : Prop :=
  ∀ s t : State, s.constructed = true → step s = .next t → t.constructed = true

/-- The zeros on the ports at reset (log 2) are triples that construction gives. -/
def Obligations.ResetTriplesAreConstructed : Prop :=
  State.reset.constructed = true

/-- R69: each name is assigned once, and a name once assigned keeps its value. -/
def Obligations.StepsAssignEachNameOnce : Prop :=
  ∀ s t : State, s.wires.assignedOnce → step s = .next t → t.wires.assignedOnce ∧
    (∀ n v, s.wires.f.lookup n = some v → t.wires.f.lookup n = some v) ∧
    (∀ n v, s.wires.o.lookup n = some v → t.wires.o.lookup n = some v) ∧
    (∀ n v, s.wires.t.lookup n = some v → t.wires.t.lookup n = some v) ∧
    (∀ n v, s.wires.c.lookup n = some v → t.wires.c.lookup n = some v) ∧
    (∀ n v, s.wires.p.lookup n = some v → t.wires.p.lookup n = some v)

/-- No name is assigned at reset. -/
def Obligations.ResetAssignsNoName : Prop :=
  State.reset.wires.assignedOnce

/-- U2 and U3: under the premise that the triples are well-formed, every setting of the two parameters gives what the
machine gives. -/
def Obligations.SettingsAgreeOnWellFormedTriples : Prop :=
  (∀ (setting : RecompNonWF) (k : Nat) (s t : State), s.operandR.wf = true → exec .recomp s = .next t →
    ∃ w, recomposeUnder setting k s.operandR = some w ∧ t.result = some (.word w)) ∧
  (∀ (setting : CmpNonWF) (s t : State), s.operandA.wf = true → s.operandB.wf = true → exec .cmp s = .next t →
    ∃ c, compareUnder setting s.operandA s.operandB = some c ∧ t.result = some (.order c)) ∧
  (∀ (k : Nat) (d : DF), recomposeUnder Config.recompNonWF k d = some (recompose d)) ∧
  (∀ a b : DF, compareUnder Config.cmpNonWF a b = some (compareDF a b))
end

