-- ==== Sys2Proof/Laws/State.lean ====
section
/-! SUPPORT. One lemma for each field and each named update of the state, so that no proof unfolds an update. -/

namespace Sys2Proof.Machine

@[simp] theorem State.report_inputs (s : State) (r : Result) : (s.report r).inputs = s.inputs := rfl
@[simp] theorem State.report_result (s : State) (r : Result) : (s.report r).result = some r := rfl
@[simp] theorem State.report_wires (s : State) (r : Result) : (s.report r).wires = s.wires := rfl
@[simp] theorem State.report_pending (s : State) (r : Result) : (s.report r).pending = s.pending := rfl
@[simp] theorem State.report_draws (s : State) (r : Result) : (s.report r).draws = s.draws + 1 := rfl

@[simp] theorem State.report_operandW (s : State) (r : Result) : (s.report r).operandW = s.operandW := rfl
@[simp] theorem State.report_operandR (s : State) (r : Result) : (s.report r).operandR = s.operandR := rfl
@[simp] theorem State.report_operandA (s : State) (r : Result) : (s.report r).operandA = s.operandA := rfl
@[simp] theorem State.report_operandB (s : State) (r : Result) : (s.report r).operandB = s.operandB := rfl

@[simp] theorem State.withFetchWord_inputs (s : State) (k w : Nat) :
    (s.withFetchWord k w).inputs = s.inputs := rfl
@[simp] theorem State.withFetchWord_result (s : State) (k w : Nat) :
    (s.withFetchWord k w).result = s.result := rfl
@[simp] theorem State.withFetchWord_wires (s : State) (k w : Nat) :
    (s.withFetchWord k w).wires = s.wires := rfl
@[simp] theorem State.withFetchWord_pending (s : State) (k w : Nat) :
    (s.withFetchWord k w).pending = presentOp (tableByte w) :: s.pending := rfl
@[simp] theorem State.withFetchWord_draws (s : State) (k w : Nat) :
    (s.withFetchWord k w).draws = s.draws := rfl

end Sys2Proof.Machine
end

