-- ==== Sys2Proof/Laws/Ops.lean ====
section
/-! SUPPORT. What each shared operation, a line and a step can do, said once, so that later proofs cite these lemmas. -/

namespace Sys2Proof.Machine

/-! ### Codes and ports -/

@[simp] theorem bitBool_boolBit (p : Bool) : bitBool (boolBit p) = p := by
  cases p <;> rfl

@[simp] theorem boolBit_bitBool (b : BitVec 1) : boolBit (bitBool b) = b := by
  revert b; decide

@[simp] theorem toDF_tripleOnPort (d : DF) : (tripleOnPort d).toDF = d := by
  simp [tripleOnPort, TriplePort.toDF]

@[simp] theorem tripleOnPort_toDF (p : TriplePort) : tripleOnPort p.toDF = p := by
  simp [tripleOnPort, TriplePort.toDF]

@[simp] theorem revOrd_revOrd (o : Ord3) : revOrd (revOrd o) = o := by
  cases o <;> rfl

/-! ### Ports one by one -/

theorem InBus.mem_all (x : InBus) : x ∈ InBus.all := by
  cases x <;> decide

theorem PortGroup.mem_all (g : PortGroup) : g ∈ PortGroup.all := by
  cases g <;> decide

theorem triplePort_ext {p q : TriplePort} (h₁ : p.sign = q.sign) (h₂ : p.exp = q.exp) (h₃ : p.mant = q.mant) : p = q := by
  cases p; cases q; simp_all

@[simp] theorem at_ofBuses (v : (x : InBus) → BitVec x.width) (x : InBus) : (Inputs.ofBuses v).at x = v x := by
  cases x <;> rfl

@[simp] theorem ofBuses_at (inp : Inputs) : Inputs.ofBuses inp.at = inp := rfl

/-- Input ports that agree port by port are the same. -/
theorem inputs_ext {i j : Inputs} (h : ∀ x, i.at x = j.at x) : i = j := by
  rw [← ofBuses_at i, ← ofBuses_at j, funext h]

/-- A whole port on a bus of its own width. -/
@[simp] theorem wiresFrom_whole (v : BitVec 64) : wiresFrom 64 v 0 = v := by
  simp [wiresFrom]

@[simp] theorem wiresFrom_setWidth_1 (v : BitVec 1) : wiresFrom 1 (v.setWidth 64) 0 = v := by
  simp [wiresFrom]

@[simp] theorem wiresFrom_setWidth_16 (v : BitVec 16) : wiresFrom 16 (v.setWidth 64) 0 = v := by
  simp [wiresFrom]

/-! ### Comparisons as comparisons of integers -/

theorem cmpS_less_iff (a b : BitVec 16) : cmpS a b = .less ↔ a.toInt < b.toInt := by
  unfold cmpS; split <;> [simp_all; (split <;> simp_all)]

theorem cmpS_equal_iff (a b : BitVec 16) : cmpS a b = .equal ↔ a = b := by
  unfold cmpS
  rw [← BitVec.toInt_inj]
  split <;> [(simp; omega); (split <;> simp_all)]

theorem cmpS_greater_iff (a b : BitVec 16) : cmpS a b = .greater ↔ b.toInt < a.toInt := by
  unfold cmpS; split <;> [(simp; omega); (split <;> simp <;> omega)]

theorem cmpU_less_iff (a b : BitVec 64) : cmpU a b = .less ↔ a.toNat < b.toNat := by
  unfold cmpU; split <;> [simp_all; (split <;> simp_all)]

theorem cmpU_equal_iff (a b : BitVec 64) : cmpU a b = .equal ↔ a = b := by
  unfold cmpU
  rw [← BitVec.toNat_inj]
  split <;> [(simp; omega); (split <;> simp_all)]

theorem cmpU_greater_iff (a b : BitVec 64) : cmpU a b = .greater ↔ b.toNat < a.toNat := by
  unfold cmpU; split <;> [(simp; omega); (split <;> simp <;> omega)]

/-! ### Operations -/

/-- Everything an operation can do: it reports a result. -/
theorem exec_reports (i : Instr) (s : State) : ∃ r, exec i s = .next (s.report r) := by
  cases i <;> exact ⟨_, rfl⟩

/-! ### Names -/

theorem assign_eq_some {α : Type} {n : Nat} {v : α} {l l' : List (Nat × α)} :
    assign n v l = some l' ↔ l.lookup n = none ∧ l' = (n, v) :: l := by
  unfold assign
  cases l.lookup n <;> simp [eq_comm]

/-- Which list of names a result enters: only the one of its kind grows, by that name. -/
theorem assignResult_eq_some {ws ws' : Wires} {n : Nat} {r : Result} (h : ws.assignResult n r = some ws') :
    (∃ w, r = .word w ∧ ws.f.lookup n = none ∧ ws' = { ws with f := (n, w) :: ws.f }) ∨
    (∃ o, r = .optTriple o ∧ ws.o.lookup n = none ∧ ws' = { ws with o := (n, o) :: ws.o }) ∨
    (∃ t, r = .triple t ∧ ws.t.lookup n = none ∧ ws' = { ws with t := (n, t) :: ws.t }) ∨
    (∃ c, r = .order c ∧ ws.c.lookup n = none ∧ ws' = { ws with c := (n, c) :: ws.c }) ∨
    (∃ p, r = .bool p ∧ ws.p.lookup n = none ∧ ws' = { ws with p := (n, p) :: ws.p }) := by
  cases r <;> simp only [Wires.assignResult, Option.map_eq_some_iff, assign_eq_some] at h <;>
    obtain ⟨_, ⟨h₁, rfl⟩, rfl⟩ := h <;> simp [h₁]

theorem assignResult_word {ws : Wires} {n : Nat} (w : Word) (h : ws.f.lookup n = none) :
    ws.assignResult n (.word w) = some { ws with f := (n, w) :: ws.f } := by
  simp [Wires.assignResult, assign, h]

theorem assignResult_optTriple {ws : Wires} {n : Nat} (o : Option DF) (h : ws.o.lookup n = none) :
    ws.assignResult n (.optTriple o) = some { ws with o := (n, o) :: ws.o } := by
  simp [Wires.assignResult, assign, h]

theorem assignResult_triple {ws : Wires} {n : Nat} (t : DF) (h : ws.t.lookup n = none) :
    ws.assignResult n (.triple t) = some { ws with t := (n, t) :: ws.t } := by
  simp [Wires.assignResult, assign, h]

theorem assignResult_order {ws : Wires} {n : Nat} (c : Ord3) (h : ws.c.lookup n = none) :
    ws.assignResult n (.order c) = some { ws with c := (n, c) :: ws.c } := by
  simp [Wires.assignResult, assign, h]

theorem assignResult_bool {ws : Wires} {n : Nat} (p : Bool) (h : ws.p.lookup n = none) :
    ws.assignResult n (.bool p) = some { ws with p := (n, p) :: ws.p } := by
  simp [Wires.assignResult, assign, h]

theorem nameResult_eq_next {s t : State} {n : Nat} {r : Result} (h : s.nameResult n r = .next t) :
    ∃ ws, s.wires.assignResult n r = some ws ∧ t = { s with wires := ws } := by
  unfold State.nameResult at h
  split at h
  · next ws hws => exact ⟨ws, hws, by simpa using h.symm⟩
  · cases h

/-- Naming the last result leaves the state as it is, or adds the one name. -/
theorem nameLast_eq_next {s t : State} {dest : Option Nat} (h : s.nameLast dest = .next t) :
    t = s ∨ ∃ n r ws, dest = some n ∧ s.result = some r ∧ s.wires.assignResult n r = some ws ∧
      t = { s with wires := ws } := by
  unfold State.nameLast at h
  split at h
  · next n r hr =>
    obtain ⟨ws, hws, rfl⟩ := nameResult_eq_next h
    exact .inr ⟨n, r, ws, rfl, hr, hws, rfl⟩
  · exact .inl (by simpa using h.symm)
  · exact .inl (by simpa using h.symm)

/-! ### Lines -/

/-- Placing succeeds exactly when the names read are assigned, and then gives every port its value. -/
theorem placedInputs_eq_ok {s : State} {d : Drives} {inp : Inputs} :
    s.placedInputs d = .ok inp ↔ (∀ nm ∈ d.names, s.wires.has nm = true) ∧
      inp = .ofBuses fun x => placedBus s.wires (s.inputs.at x) (d.at x) := by
  unfold State.placedInputs
  cases h : d.names.find? fun nm => !s.wires.has nm with
  | none =>
    simp only [List.find?_eq_none, Bool.not_eq_true', Bool.not_eq_false] at h
    simp only [Except.ok.injEq, eq_comm (b := inp)]
    exact ⟨fun e => ⟨h, e⟩, fun e => e.2⟩
  | some nm =>
    have hm := List.mem_of_find?_eq_some h
    have hn := List.find?_some h
    simp only [reduceCtorEq, false_iff, not_and]
    exact fun hall => by simp [hall nm hm] at hn

/-- Placing fails at a name that is not assigned, and says which. -/
theorem placedInputs_of_unassigned {s : State} {d : Drives} {nm : Name} (hm : nm ∈ d.names)
    (hn : s.wires.has nm = false) :
    ∃ nm' ∈ d.names, s.wires.has nm' = false ∧ s.placedInputs d = .error nm'.unassigned := by
  unfold State.placedInputs
  cases h : d.names.find? fun nm => !s.wires.has nm with
  | none => simp only [List.find?_eq_none, Bool.not_eq_true', Bool.not_eq_false] at h; simp [h nm hm] at hn
  | some nm' => exact ⟨nm', List.mem_of_find?_eq_some h, by simpa using List.find?_some h, rfl⟩

/-- The ports after a line: placed, and then settled. -/
theorem drivenInputs_eq_ok {s : State} {d : Drives} {inp : Inputs} (h : s.drivenInputs d = .ok inp) :
    ∃ placed, s.placedInputs d = .ok placed ∧ inp = (State.afterWiring { s with inputs := placed } d).inputs := by
  unfold State.drivenInputs at h
  split at h
  · cases h
  · next placed hp => exact ⟨placed, hp, by simpa using h.symm⟩

/-- A line whose sources can be read drives its ports. -/
theorem drivenInputs_of_placed {s : State} {d : Drives} {placed : Inputs} (h : s.placedInputs d = .ok placed) :
    s.drivenInputs d = .ok (State.afterWiring { s with inputs := placed } d).inputs := by
  simp [State.drivenInputs, h]

/-- Applying an operation drives the ports, reports a result, and may name it. -/
theorem apply_eq_next {s t : State} {i : Instr} {d : Drives} {dest : Option Nat}
    (h : s.apply i d dest = .next t) :
    ∃ inp r, s.drivenInputs d = .ok inp ∧
      exec i { s with inputs := inp } = .next (State.report { s with inputs := inp } r) ∧
      (State.report { s with inputs := inp } r).nameLast dest = .next t := by
  unfold State.apply at h
  split at h
  · next inp hinp =>
    obtain ⟨r, hr⟩ := exec_reports i { s with inputs := inp }
    rw [hr] at h
    exact ⟨inp, r, hinp, hr, h⟩
  · cases h

theorem unwrap_eq_next {s t : State} {dest src : Nat} (h : s.unwrap dest src = .next t) :
    ∃ d, s.wires.o.lookup src = some (some d) ∧ s.nameResult dest (.triple d) = .next t := by
  unfold State.unwrap at h
  split at h
  · cases h
  · cases h
  · next d hd => exact ⟨d, hd, h⟩

/-- Everything a line that runs can be. -/
theorem runLine_eq_next {line : Line} {s t : State} (h : runLine line s = .next t) :
    (∃ op d dest i rest, line = .operation op d dest ∧ decode [op] = .ok i rest ∧
      s.apply i d dest = .next t) ∨
    (∃ dest src, line = .unwrap dest src ∧ s.unwrap dest src = .next t) ∨
    (∃ dest w, line = .nameWord dest w ∧ s.nameResult dest (.word w) = .next t) := by
  cases line with
  | operation op d dest =>
    simp only [runLine] at h
    split at h
    · next i rest hi => exact .inl ⟨op, d, dest, i, rest, rfl, hi, h⟩
    all_goals cases h
  | unwrap dest src => exact .inr (.inl ⟨dest, src, rfl, h⟩)
  | nameWord dest w => exact .inr (.inr ⟨dest, w, rfl, h⟩)

/-! ### The next line -/

/-- Everything the next line can be: the first that may run, the lines before it being passed over. -/
theorem firstToRun_eq_some {ws : Wires} {pending : List Line} {l : Line} {others : List Line} :
    ∀ {lines passed : List Line}, firstToRun ws pending passed lines = some (l, others) →
      ∃ before after, lines = before ++ l :: after ∧ others = before ++ after ∧
        l.mayRun ws pending (passed ++ before) = true ∧
        ∀ (i : Nat) (m : Line), before[i]? = some m → m.mayRun ws pending (passed ++ before.take i) = false
  | [], _, h => by simp [firstToRun] at h
  | m :: rest, passed, h => by
    unfold firstToRun at h
    split at h
    · next hm =>
      simp only [Option.some.injEq, Prod.mk.injEq] at h
      obtain ⟨rfl, rfl⟩ := h
      exact ⟨[], rest, rfl, rfl, by simpa using hm, by simp⟩
    · next hm =>
      simp only [Option.map_eq_some_iff, Prod.mk.injEq] at h
      obtain ⟨⟨l', o'⟩, hx, rfl, rfl⟩ := h
      obtain ⟨before, after, rfl, rfl, hl, hb⟩ := firstToRun_eq_some hx
      refine ⟨m :: before, after, rfl, rfl, by simpa using hl, fun i n hi => ?_⟩
      cases i with
      | zero => simp only [List.getElem?_cons_zero, Option.some.injEq] at hi; subst hi; simpa using hm
      | succ i => simpa using hb i n (by simpa using hi)

/-- The line that runs next, given the lines before it. -/
theorem firstToRun_append {ws : Wires} {pending : List Line} {l : Line} {after : List Line} :
    ∀ {before passed : List Line}, l.mayRun ws pending (passed ++ before) = true →
      (∀ (i : Nat) (m : Line), before[i]? = some m → m.mayRun ws pending (passed ++ before.take i) = false) →
      firstToRun ws pending passed (before ++ l :: after) = some (l, before ++ after)
  | [], passed, hl, _ => by
    simp only [List.append_nil] at hl
    simp [firstToRun, hl]
  | m :: before, passed, hl, hb => by
    have hm : m.mayRun ws pending passed = false := by simpa using hb 0 m rfl
    have ih := firstToRun_append (after := after) (before := before) (passed := passed ++ [m]) (by simpa using hl)
      (fun i n hi => by simpa using hb (i + 1) n (by simpa using hi))
    simp [firstToRun, hm, ih]

/-- A line whose names are all assigned waits for nothing. -/
theorem waits_eq_false {ws : Wires} {l : Line} (pending : List Line) (h : ∀ nm ∈ l.reads, ws.has nm = true) :
    l.waits ws pending = false := by
  simp only [Line.waits, List.any_eq_false]
  intro nm hnm
  simp [h nm hnm]

/-- A step that runs presents a pending line, and keeps the others pending. -/
theorem step_eq_next {s t : State} (h : step s = .next t) :
    ∃ line before after, s.pending = before ++ line :: after ∧
      runLine line { s with pending := before ++ after } = .next t := by
  unfold step at h
  split at h
  · cases h
  · split at h
    · next line rest hn =>
      obtain ⟨before, after, hp, rfl, -, -⟩ := firstToRun_eq_some hn
      exact ⟨line, before, after, hp, h⟩
    · cases h

/-- A step presents the first pending line that may run. -/
theorem step_of_mayRun {s : State} {line : Line} {before after : List Line}
    (hp : s.pending = before ++ line :: after) (hl : line.mayRun s.wires s.pending before = true)
    (hb : ∀ (i : Nat) (m : Line), before[i]? = some m → m.mayRun s.wires s.pending (before.take i) = false) :
    step s = runLine line { s with pending := before ++ after } := by
  have h : s.nextLine = some (line, before ++ after) := by
    have := firstToRun_append (passed := []) (after := after) (by simpa using hl) (by simpa using hb)
    rwa [← hp] at this
  unfold step
  split
  · next he => simp [he] at hp
  · simp [h]

/-- The first pending line runs if it waits for nothing. -/
theorem step_of_pending {s : State} {line : Line} {rest : List Line} (h : s.pending = line :: rest)
    (hw : line.waits s.wires s.pending = false) : step s = runLine line { s with pending := rest } :=
  step_of_mayRun (before := []) h (by simp [Line.mayRun, hw]) (by simp)

end Sys2Proof.Machine
end

