-- ==== Sys2Proof/Laws/Wiring.lean ====
section
/-! SUPPORT. Direct wiring of output ports to input ports: it settles, and then every wired port carries the output it is
wired to, but for the free values where a loop that is not stable closes. -/

namespace Sys2Proof.Machine

/-! ### What is on one port -/

theorem carriedBus_of_not_wired {w : Nat} {src : Option (Source w)} (o : Outputs) (held : BitVec w)
    (h : wiredFrom src = none) : carriedBus o held src = held := by
  rcases src with _ | _ | _ | _ <;> first | rfl | cases h

/-- A wired port carries the output alone, whatever it held. -/
theorem carriedBus_of_wired {w : Nat} {src : Option (Source w)} {g : PortGroup} (o : Outputs) (held held' : BitVec w)
    (h : wiredFrom src = some g) : carriedBus o held src = carriedBus o held' src := by
  rcases src with _ | _ | _ | _ <;> first | rfl | cases h

/-- A wired port carries the same if the outputs of its group do. -/
theorem carriedBus_congr {w : Nat} {src : Option (Source w)} {g : PortGroup} {o o' : Outputs} (held : BitVec w)
    (h : wiredFrom src = some g) (ho : ∀ p : OutPort, p.group = g → o.bits p = o'.bits p) :
    carriedBus o held src = carriedBus o' held src := by
  rcases src with _ | _ | _ | ⟨p, lo⟩ <;> try cases h
  simp [carriedBus, ho p rfl]

theorem feeds_of_wiredFrom {d : Drives} {x : InBus} {g : PortGroup} (h : wiredFrom (d.at x) = some g) :
    d.feeds g x.group = true := by
  simp only [Drives.feeds, List.any_eq_true]
  exact ⟨x, x.mem_all, by simp [h]⟩

theorem closes_of_wiredFrom {d : Drives} {x : InBus} {g : PortGroup} (h : wiredFrom (d.at x) = some g) :
    d.closes x = d.closesFrom g x.group := by
  simp [Drives.closes, h]

theorem wiredFrom_of_closes {d : Drives} {x : InBus} (h : d.closes x = true) :
    ∃ g, wiredFrom (d.at x) = some g := by
  unfold Drives.closes at h
  split at h
  · cases h
  · next g hg => exact ⟨g, hg⟩

/-! ### The outputs of a group are functions of its inputs (R22) -/

/-- Two states have the same values on the input ports of a group. -/
def State.AgreeOn (s t : State) (g : PortGroup) : Prop :=
  ∀ x : InBus, x.group = g → s.inputs.at x = t.inputs.at x

theorem agreeOn_decomp {s t : State} (h : s.AgreeOn t .decomp) : s.inputs.fIn = t.inputs.fIn :=
  h .fIn rfl

theorem agreeOn_recomp {s t : State} (h : s.AgreeOn t .recomp) : s.inputs.r = t.inputs.r :=
  triplePort_ext (h .rSign rfl) (h .rExp rfl) (h .rMant rfl)

theorem agreeOn_comparator {s t : State} (h : s.AgreeOn t .comparator) :
    s.inputs.a = t.inputs.a ∧ s.inputs.b = t.inputs.b :=
  ⟨triplePort_ext (h .aSign rfl) (h .aExp rfl) (h .aMant rfl),
    triplePort_ext (h .bSign rfl) (h .bExp rfl) (h .bMant rfl)⟩

/-- The outputs of a group are the same in states that agree on its inputs, and on the count of evaluations. -/
theorem bits_congr {s t : State} {g : PortGroup} (h : s.AgreeOn t g) (hd : s.draws = t.draws) (p : OutPort)
    (hp : p.group = g) : s.outputs.bits p = t.outputs.bits p := by
  subst hp
  cases p <;> simp only [OutPort.group] at h <;>
    first
      | simp only [Outputs.bits, State.outputs, State.decomposerOut, State.operandW, agreeOn_decomp h, hd]
      | simp only [Outputs.bits, State.outputs, State.operandR, agreeOn_recomp h]
      | simp only [Outputs.bits, State.outputs, State.operandA, State.operandB, (agreeOn_comparator h).1,
          (agreeOn_comparator h).2]

/-! ### One pass -/

@[simp] theorem passWiring_draws (s : State) (d : Drives) : (s.passWiring d).draws = s.draws := rfl

theorem passWiring_at (s : State) (d : Drives) (x : InBus) : (s.passWiring d).inputs.at x =
    if d.closes x then s.inputs.at x else carriedBus s.outputs (s.inputs.at x) (d.at x) :=
  at_ofBuses _ _

/-- A pass leaves a port alone that is not wired, or at which a loop closes. -/
theorem passWiring_keeps (s : State) {d : Drives} {x : InBus} (h : wiredFrom (d.at x) = none ∨ d.closes x = true) :
    (s.passWiring d).inputs.at x = s.inputs.at x := by
  rw [passWiring_at]
  split
  · rfl
  · next hc => exact carriedBus_of_not_wired _ _ (h.resolve_right hc)

/-- A pass makes two states agree on a group, if they agree on the ports it leaves alone and on the groups whose outputs
it brings to the others. -/
theorem passWiring_agreeOn {s t : State} {d : Drives} {h : PortGroup} (hd : s.draws = t.draws)
    (hk : ∀ x : InBus, x.group = h → wiredFrom (d.at x) = none ∨ d.closes x = true → s.inputs.at x = t.inputs.at x)
    (hw : ∀ g, d.feeds g h = true → d.closesFrom g h = false → s.AgreeOn t g) :
    (s.passWiring d).AgreeOn (t.passWiring d) h := by
  rintro x rfl
  by_cases hx : wiredFrom (d.at x) = none ∨ d.closes x = true
  · rw [passWiring_keeps s hx, passWiring_keeps t hx, hk x rfl hx]
  · obtain ⟨hn, hc⟩ := not_or.1 hx
    obtain ⟨g, hg⟩ := Option.ne_none_iff_exists'.1 hn
    rw [passWiring_at, passWiring_at, if_neg hc, if_neg hc, carriedBus_of_wired _ _ (t.inputs.at x) hg]
    refine carriedBus_congr _ hg fun p hp => bits_congr (hw g (feeds_of_wiredFrom hg) ?_) hd p hp
    simpa [closes_of_wiredFrom hg] using hc

/-! ### Two passes settle the wiring -/

/-- Where no loop closes, no path of wires passes the outputs of three groups: three groups on a path are all there are,
and a fourth would close a loop. -/
theorem no_longer_path {d : Drives} {g₀ g₁ g₂ g₃ : PortGroup}
    (h₁ : d.feeds g₀ g₁ = true) (c₁ : d.closesFrom g₀ g₁ = false) (h₂ : d.feeds g₁ g₂ = true)
    (c₂ : d.closesFrom g₁ g₂ = false) (h₃ : d.feeds g₂ g₃ = true) (c₃ : d.closesFrom g₂ g₃ = false) : False := by
  cases g₀ <;> cases g₁ <;> cases g₂ <;> cases g₃ <;> simp_all [Drives.closesFrom]

/-- A third pass changes nothing. -/
theorem settled_agreeOn (s : State) (d : Drives) (h : PortGroup) :
    (s.settled d).AgreeOn ((s.settled d).passWiring d) h := by
  refine passWiring_agreeOn rfl (fun x _ hx => (passWiring_keeps _ hx).symm) fun g hg cg => ?_
  refine passWiring_agreeOn rfl (fun x _ hx => (passWiring_keeps _ hx).symm) fun g' hg' cg' => ?_
  rintro x rfl
  by_cases hx : wiredFrom (d.at x) = none ∨ d.closes x = true
  · exact (passWiring_keeps _ hx).symm
  · obtain ⟨hn, hc⟩ := not_or.1 hx
    obtain ⟨g'', hw⟩ := Option.ne_none_iff_exists'.1 hn
    rw [closes_of_wiredFrom hw] at hc
    exact (no_longer_path (feeds_of_wiredFrom hw) (by simpa using hc) hg' cg' hg cg).elim

/-- The wiring has settled but for the loops: every port at which no loop closes carries the output wired to it. -/
def State.Carries (s : State) (d : Drives) : Prop :=
  ∀ x, d.closes x = false → carriedBus s.outputs (s.inputs.at x) (d.at x) = s.inputs.at x

/-- Two passes settle the wiring but for the loops. -/
theorem settled_carries (s : State) (d : Drives) : (s.settled d).Carries d := by
  intro x hx
  have h := settled_agreeOn s d x.group x rfl
  rw [passWiring_at, if_neg (by simp [hx])] at h
  exact h.symm

@[simp] theorem settled_draws (s : State) (d : Drives) : (s.settled d).draws = s.draws := rfl

/-- Settling leaves a port alone that is not wired, or at which a loop closes. -/
theorem settled_keeps (s : State) {d : Drives} {x : InBus} (h : wiredFrom (d.at x) = none ∨ d.closes x = true) :
    (s.settled d).inputs.at x = s.inputs.at x :=
  (passWiring_keeps _ h).trans (passWiring_keeps _ h)

/-! ### Loops -/

/-- A group whose loops are all stable: each port at which one closes has the value of the output wired to it. -/
theorem groupStable_iff {s : State} {d : Drives} {g : PortGroup} : s.groupStable d g = true ↔
    ∀ x : InBus, x.group = g → d.closes x = true →
      carriedBus s.outputs (s.inputs.at x) (d.at x) = s.inputs.at x := by
  simp only [State.groupStable, State.stableAt, List.all_eq_true, Bool.or_eq_true, Bool.not_eq_true',
    decide_eq_true_eq, decide_eq_false_iff_not]
  refine ⟨fun h x hx hc => ?_, fun h x _ => ?_⟩
  · rcases h x x.mem_all with h | h | h
    · exact absurd hx h
    · simp [hc] at h
    · exact h
  · by_cases hx : x.group = g
    · cases hc : d.closes x
      · exact .inr (.inl rfl)
      · exact .inr (.inr (h x hx hc))
    · exact .inl hx

@[simp] theorem releaseGroup_draws (s : State) (d : Drives) (free : Inputs) (g : PortGroup) :
    (s.releaseGroup d free g).draws = s.draws := rfl

theorem releaseGroup_carries (s : State) (d : Drives) (free : Inputs) (g : PortGroup) :
    (s.releaseGroup d free g).Carries d :=
  settled_carries _ _

/-- Releasing a group leaves a port alone that is not wired. -/
theorem releaseGroup_of_not_wired (s : State) {d : Drives} (free : Inputs) (g : PortGroup) {x : InBus}
    (h : wiredFrom (d.at x) = none) : (s.releaseGroup d free g).inputs.at x = s.inputs.at x := by
  rw [State.releaseGroup, settled_keeps _ (.inl h), at_ofBuses]
  simp [Drives.closes, h]

/-- Where a loop closes, releasing a group gives its own ports their free values and leaves the others alone. -/
theorem releaseGroup_of_closes (s : State) {d : Drives} (free : Inputs) (g : PortGroup) {x : InBus}
    (h : d.closes x = true) :
    (s.releaseGroup d free g).inputs.at x = if x.group = g then free.at x else s.inputs.at x := by
  rw [State.releaseGroup, settled_keeps _ (.inr h), at_ofBuses]
  simp [h]

/-- Everything that releasing loops can do: the ports that are not wired stay, the others carry the output wired to them,
or, where a loop closes, a free value. -/
theorem releaseLoops_spec {d : Drives} {free : Inputs} : ∀ {k : Nat} {waiting : List PortGroup} {s : State},
    waiting.length ≤ k → s.Carries d →
    (∀ x, d.closes x = true → x.group ∉ waiting → s.inputs.at x = free.at x) →
    (releaseLoops d free k waiting s).draws = s.draws ∧
    (∀ x, wiredFrom (d.at x) = none → (releaseLoops d free k waiting s).inputs.at x = s.inputs.at x) ∧
    (releaseLoops d free k waiting s).Carries d ∧
    ∀ x, d.closes x = true →
      carriedBus (releaseLoops d free k waiting s).outputs ((releaseLoops d free k waiting s).inputs.at x) (d.at x) =
        (releaseLoops d free k waiting s).inputs.at x ∨
      (releaseLoops d free k waiting s).inputs.at x = free.at x
  | 0, waiting, s, hk, hc, hf => by
    obtain rfl : waiting = [] := List.length_eq_zero_iff.1 (by omega)
    exact ⟨rfl, fun _ _ => rfl, hc, fun x hx => .inr (hf x hx (by simp))⟩
  | k + 1, waiting, s, hk, hc, hf => by
    simp only [releaseLoops]
    split
    · next hn =>
      refine ⟨rfl, fun _ _ => rfl, hc, fun x hx => ?_⟩
      by_cases hw : x.group ∈ waiting
      · have h := List.find?_eq_none.1 hn _ hw
        exact .inl (groupStable_iff.1 (by simpa using h) x rfl hx)
      · exact .inr (hf x hx hw)
    · next g hg =>
      have hm := List.mem_of_find?_eq_some hg
      obtain ⟨h₁, h₂, h₃, h₄⟩ := releaseLoops_spec (d := d) (free := free) (k := k) (waiting := waiting.erase g)
        (s := s.releaseGroup d free g) (by rw [List.length_erase_of_mem hm]; omega)
        (releaseGroup_carries _ _ _ _) (fun x hx hw => by
          rw [releaseGroup_of_closes _ _ _ hx]
          split
          · rfl
          · next hne => exact hf x hx fun hin => hw ((List.mem_erase_of_ne hne).2 hin))
      exact ⟨h₁, fun x hx => (h₂ x hx).trans (releaseGroup_of_not_wired _ _ _ hx), h₃, h₄⟩

/-- Everything a line's wiring can do to the ports. -/
theorem afterWiring_spec (s : State) (d : Drives) :
    (s.afterWiring d).draws = s.draws ∧
    (∀ x, wiredFrom (d.at x) = none → (s.afterWiring d).inputs.at x = s.inputs.at x) ∧
    (s.afterWiring d).Carries d ∧
    ∀ x, d.closes x = true →
      carriedBus (s.afterWiring d).outputs ((s.afterWiring d).inputs.at x) (d.at x) = (s.afterWiring d).inputs.at x ∨
      (s.afterWiring d).inputs.at x = (s.freeInputs d).at x := by
  obtain ⟨h₁, h₂, h₃, h₄⟩ := releaseLoops_spec (d := d) (free := s.freeInputs d) (k := PortGroup.all.length)
    (waiting := PortGroup.all) (s := s.settled d) (le_refl _) (settled_carries s d)
    (fun x _ hx => absurd x.group.mem_all hx)
  exact ⟨h₁, fun x hx => (h₂ x hx).trans (settled_keeps _ (.inl hx)), h₃, h₄⟩

/-- Loops that are all stable are left as they are. -/
theorem afterWiring_of_stable {s : State} {d : Drives} (h : ∀ g, (s.settled d).groupStable d g = true) :
    s.afterWiring d = s.settled d := by
  simp [State.afterWiring, PortGroup.all, releaseLoops, h]

/-- Wiring without a loop just settles. -/
theorem afterWiring_of_no_loops (s : State) (d : Drives) (h : d.loops = false) : s.afterWiring d = s.settled d := by
  refine afterWiring_of_stable fun g => groupStable_iff.2 fun x _ hx => ?_
  simp only [Drives.loops, List.any_eq_false] at h
  exact absurd hx (h x x.mem_all)

/-- If the loops of one group alone are not stable, and are the only ones, that group is released. -/
theorem afterWiring_of_unstable {s : State} {d : Drives} {g : PortGroup} (h : (s.settled d).groupStable d g = false)
    (ho : ∀ x, d.closes x = true → x.group = g) :
    s.afterWiring d = (s.settled d).releaseGroup d (s.freeInputs d) g := by
  have hs : ∀ (t : State) (g' : PortGroup), g' ≠ g → t.groupStable d g' = true := fun t g' hne =>
    groupStable_iff.2 fun x hx hc => absurd (hx.symm.trans (ho x hc)) hne
  cases g <;> simp [State.afterWiring, PortGroup.all, releaseLoops, h, hs]

/-! ### The pending lines play no part -/

theorem settled_pending (s : State) (d : Drives) (lines : List Line) :
    State.settled { s with pending := lines } d = { s.settled d with pending := lines } := rfl

theorem releaseLoops_pending (d : Drives) (free : Inputs) (lines : List Line) :
    ∀ (k : Nat) (waiting : List PortGroup) (s : State),
      releaseLoops d free k waiting { s with pending := lines } =
        { releaseLoops d free k waiting s with pending := lines }
  | 0, _, _ => rfl
  | k + 1, waiting, s => by
    have h : ∀ g, State.groupStable { s with pending := lines } d g = s.groupStable d g := fun _ => rfl
    simp only [releaseLoops, h]
    split
    · rfl
    · next g _ => exact releaseLoops_pending d free lines k (waiting.erase g) (s.releaseGroup d free g)

theorem afterWiring_pending (s : State) (d : Drives) (lines : List Line) :
    State.afterWiring { s with pending := lines } d = { s.afterWiring d with pending := lines } :=
  releaseLoops_pending d (s.freeInputs d) lines _ _ (s.settled d)

/-- The ports do not depend on which lines are pending. -/
@[simp] theorem drivenInputs_pending (s : State) (d : Drives) (lines : List Line) :
    State.drivenInputs { s with pending := lines } d = s.drivenInputs d := by
  have hp : State.placedInputs { s with pending := lines } d = s.placedInputs d := rfl
  simp only [State.drivenInputs, hp]
  split
  · rfl
  · next inp _ =>
    have h := congrArg State.inputs (afterWiring_pending { s with inputs := inp } d lines)
    exact congrArg Except.ok h

/-! ### What the ports carry after a line -/

/-- A port that is not wired carries what the line places there. -/
theorem drivenInputs_of_port_not_wired {s : State} {d : Drives} {placed inp : Inputs} (hp : s.placedInputs d = .ok placed)
    (h : s.drivenInputs d = .ok inp) {x : InBus} (hx : wiredFrom (d.at x) = none) : inp.at x = placed.at x := by
  rw [drivenInputs_of_placed hp] at h
  cases h
  exact (afterWiring_spec _ d).2.1 x hx

/-- A port that is wired carries the output wired to it, or a free value where a loop closes. -/
theorem drivenInputs_of_port_wired {s : State} {d : Drives} {placed inp : Inputs} (hp : s.placedInputs d = .ok placed)
    (h : s.drivenInputs d = .ok inp) {x : InBus} {p : OutPort} {lo : Nat} (hx : d.at x = some (.out p lo)) :
    inp.at x = wiresFrom x.width ((State.outputs { s with inputs := inp }).bits p) lo ∨
      (d.closes x = true ∧ inp.at x = (State.freeInputs { s with inputs := placed } d).at x) := by
  rw [drivenInputs_of_placed hp] at h
  cases h
  obtain ⟨hd, -, hc, hl⟩ := afterWiring_spec { s with inputs := placed } d
  have ho : State.outputs { s with inputs := (State.afterWiring { s with inputs := placed } d).inputs } =
      (State.afterWiring { s with inputs := placed } d).outputs := by
    simp only [State.outputs, State.decomposerOut, State.operandW, State.operandR, State.operandA, State.operandB, hd]
  rw [ho]
  cases hx' : d.closes x
  · have h := hc x hx'
    rw [hx] at h
    exact .inl h.symm
  · refine (hl x hx').imp (fun h => ?_) fun h => ⟨rfl, h⟩
    rw [hx] at h
    exact h.symm

/-- A line that wires no port drives just what it places. -/
theorem drivenInputs_of_not_wired {s : State} {d : Drives} {placed : Inputs} (h : s.placedInputs d = .ok placed)
    (hw : ∀ x, wiredFrom (d.at x) = none) : s.drivenInputs d = .ok placed := by
  rw [drivenInputs_of_placed h]
  exact congrArg _ (inputs_ext fun x => (afterWiring_spec _ d).2.1 x (hw x))

/-- d_* of a word that DECOMP accepts. -/
theorem outputs_d_of_some {s : State} {d : DF} (h : decompose s.inputs.fIn = some d) :
    s.outputs.d = tripleOnPort d := by
  simp only [State.outputs, State.decomposerOut, State.operandW, h]

theorem outputs_fOut_eq (s : State) : s.outputs.fOut = recompose s.inputs.r.toDF := rfl

end Sys2Proof.Machine
end

