-- ==== Sys2Proof/Laws/Lines.lean ====
section
/-! SUPPORT. What a step does when the first pending line is a given line, so that a sequence is run by citing one lemma
for each of its lines. -/

namespace Sys2Proof.Machine

theorem operationOf_of_decode {op : Byte} {i : Instr} {rest : List Byte} (h : decode [op] = .ok i rest) :
    operationOf op = some i := by
  simp [operationOf, h]

/-! ### Reading names -/

/-- An operation line whose ports can be placed waits for nothing. -/
theorem waits_operation {s : State} {d : Drives} {placed : Inputs} (pending : List Line) (op : Byte)
    (dest : Option Nat) (h : s.placedInputs d = .ok placed) :
    (Line.operation op d dest).waits s.wires pending = false := by
  refine waits_eq_false _ fun nm hnm => ?_
  simp only [Line.reads] at hnm
  split at hnm
  · exact (placedInputs_eq_ok.1 h).1 nm hnm
  · simp at hnm

/-- A line of an unassigned operation number waits for nothing. -/
theorem waits_unassigned {op : Byte} (ws : Wires) (pending : List Line) (d : Drives) (dest : Option Nat)
    (h : operationOf op = none) : (Line.operation op d dest).waits ws pending = false :=
  waits_eq_false _ (by simp [Line.reads, h])

theorem waits_nameWord (ws : Wires) (pending : List Line) (dest : Nat) (w : Word) :
    (Line.nameWord dest w).waits ws pending = false :=
  waits_eq_false _ (by simp [Line.reads])

/-- UNWRAP waits for nothing if its name is assigned, or if no pending line assigns it. -/
theorem waits_unwrap {ws : Wires} {pending : List Line} (dest : Nat) {src : Nat}
    (h : (ws.o.lookup src).isSome = true ∨ ∀ m ∈ pending, m.assigns ≠ some (.o src)) :
    (Line.unwrap dest src).waits ws pending = false := by
  rcases h with h | h
  · exact waits_eq_false _ (by simp [Line.reads, Wires.has, h])
  · simp only [Line.waits, Line.reads, List.any_cons, List.any_nil, Bool.or_false, Bool.and_eq_false_iff]
    exact .inr (by simpa [List.any_eq_false] using h)

/-! ### Running the first pending line -/

/-- An operation line: the ports are driven, the operation reports, the result is named. -/
theorem step_operation {s : State} {op : Byte} {d : Drives} {dest : Option Nat} {rest : List Line} {i : Instr}
    {inp : Inputs} (hp : s.pending = .operation op d dest :: rest) (hd : decode [op] = .ok i [])
    (hin : s.drivenInputs d = .ok inp) :
    step s = nameAfter dest (exec i { s with pending := rest, inputs := inp }) := by
  obtain ⟨placed, hpl, -⟩ := drivenInputs_eq_ok hin
  rw [step_of_pending hp (waits_operation _ _ _ hpl)]
  simp [runLine, hd, State.apply, hin]

/-- An operation line that names its result. -/
theorem step_operation_named {s : State} {op : Byte} {d : Drives} {n : Nat} {rest : List Line} {i : Instr}
    {inp : Inputs} {r : Result} {ws : Wires} (hp : s.pending = .operation op d (some n) :: rest)
    (hd : decode [op] = .ok i []) (hin : s.drivenInputs d = .ok inp)
    (hr : exec i { s with pending := rest, inputs := inp } =
      .next (State.report { s with pending := rest, inputs := inp } r))
    (hw : s.wires.assignResult n r = some ws) :
    step s = .next
      { inputs := inp, result := some r, wires := ws, pending := rest, draws := s.draws + 1 } := by
  rw [step_operation hp hd hin, hr]
  simp [nameAfter, State.nameLast, State.report, State.nameResult, hw]

theorem step_unwrap {s : State} {dest src : Nat} {rest : List Line} {d : DF}
    (hp : s.pending = .unwrap dest src :: rest) (hs : s.wires.o.lookup src = some (some d))
    (ht : s.wires.t.lookup dest = none) :
    step s = .next { s with pending := rest, wires := { s.wires with t := (dest, d) :: s.wires.t } } := by
  rw [step_of_pending hp (waits_unwrap _ (.inl (by simp [hs])))]
  simp [runLine, State.unwrap, hs, State.nameResult, Wires.assignResult, assign, ht]

theorem step_unwrap_absent {s : State} {dest src : Nat} {rest : List Line}
    (hp : s.pending = .unwrap dest src :: rest) (hs : s.wires.o.lookup src = some none) :
    step s = .refused (.unwrapAbsent src) := by
  rw [step_of_pending hp (waits_unwrap _ (.inl (by simp [hs])))]
  simp [runLine, State.unwrap, hs]

theorem step_nameWord {s : State} {dest : Nat} {w : Word} {rest : List Line}
    (hp : s.pending = .nameWord dest w :: rest) :
    step s = State.nameResult { s with pending := rest } dest (.word w) :=
  step_of_pending hp (waits_nameWord _ _ _ _)

/-! ### Driving ports from names -/

/-- The ports after a line that wires none of them. -/
theorem drivenInputs_of_names {s : State} {d : Drives} (hn : ∀ nm ∈ d.names, s.wires.has nm = true)
    (hw : ∀ x, wiredFrom (d.at x) = none) :
    s.drivenInputs d = .ok (.ofBuses fun x => placedBus s.wires (s.inputs.at x) (d.at x)) :=
  drivenInputs_of_not_wired (placedInputs_eq_ok.2 ⟨hn, rfl⟩) hw

/-- f_in driven from a name, and no other port. -/
theorem drivenInputs_fIn_wire {s : State} {n : Nat} {w : Word} (h : s.wires.f.lookup n = some w) :
    s.drivenInputs { fIn := some (.name (.f n) 0) } = .ok { s.inputs with fIn := w } := by
  refine (drivenInputs_of_names ?_ fun x => by cases x <;> rfl).trans ?_
  · simp [Drives.names, InBus.all, Drives.at, sourceName, NamePart.name, Wires.has, h]
  · simp [Inputs.ofBuses, Drives.at, placedBus, Wires.bits, h, Inputs.at]

/-- r_* driven from a name, and no other port. -/
theorem drivenInputs_r_wire {s : State} {n : Nat} {t : DF} (h : s.wires.t.lookup n = some t) :
    s.drivenInputs { r := .named n } = .ok { s.inputs with r := tripleOnPort t } := by
  refine (drivenInputs_of_names ?_ fun x => by cases x <;> rfl).trans ?_
  · simp [Drives.names, InBus.all, Drives.at, TripleDrive.named, sourceName, NamePart.name, Wires.has, h]
  · simp [Inputs.ofBuses, Drives.at, TripleDrive.named, placedBus, Wires.bits, h, Inputs.at, tripleOnPort]

/-- a_* and b_* driven from names, and no other port. -/
theorem drivenInputs_ab_wires {s : State} {m n : Nat} {t u : DF} (ht : s.wires.t.lookup m = some t)
    (hu : s.wires.t.lookup n = some u) :
    s.drivenInputs { a := .named m, b := .named n } =
      .ok { s.inputs with a := tripleOnPort t, b := tripleOnPort u } := by
  refine (drivenInputs_of_names ?_ fun x => by cases x <;> rfl).trans ?_
  · simp [Drives.names, InBus.all, Drives.at, TripleDrive.named, sourceName, NamePart.name, Wires.has, ht, hu]
  · simp [Inputs.ofBuses, Drives.at, TripleDrive.named, placedBus, Wires.bits, ht, hu, Inputs.at, tripleOnPort]

end Sys2Proof.Machine
end

