-- ==== Sys2Proof/Laws/Notation.lean ====
section
/-! SUPPORT. What a line gives, and that it depends on the names it reads alone: for lines in the notation of R69, and for
lines that wire outputs to inputs (spec/70_reset_and_hazards.md R169). -/

namespace Sys2Proof.Machine

/-! ### Assigning a name -/

/-- The name a result of number `n` takes. -/
def Result.name (n : Nat) : Result → Name
  | .word _ => .f n
  | .optTriple _ => .o n
  | .triple _ => .t n
  | .order _ => .c n
  | .bool _ => .p n

theorem lookup_cons_of_ne {α : Type} {m n : Nat} (v : α) (l : List (Nat × α)) (h : m ≠ n) :
    ((n, v) :: l).lookup m = l.lookup m := by
  have : (m == n) = false := by simpa using h
  rw [List.lookup_cons, this]

/-- A name can be assigned exactly when it is free. -/
theorem assignResult_isSome_iff (ws : Wires) (n : Nat) (r : Result) :
    (∃ ws', ws.assignResult n r = some ws') ↔ ws.has (r.name n) = false := by
  cases r <;> simp only [Wires.assignResult, assign, Result.name, Wires.has] <;>
    (generalize List.lookup n _ = v; cases v <;> simp)

/-- Assigning a name gives it a value, and leaves every other name as it was. -/
theorem assignResult_agreeAt {ws ws' : Wires} {n : Nat} {r : Result} (h : ws.assignResult n r = some ws')
    {nm : Name} (hne : nm ≠ r.name n) : ws'.agreeAt ws nm := by
  rcases assignResult_eq_some h with ⟨v, rfl, -, rfl⟩ | ⟨v, rfl, -, rfl⟩ | ⟨v, rfl, -, rfl⟩ | ⟨v, rfl, -, rfl⟩ |
      ⟨v, rfl, -, rfl⟩ <;>
    cases nm <;> simp only [Wires.agreeAt] <;> refine lookup_cons_of_ne _ _ ?_ <;> rintro rfl <;>
    exact hne rfl

theorem assignResult_has {ws ws' : Wires} {n : Nat} {r : Result} (h : ws.assignResult n r = some ws') :
    ws'.has (r.name n) = true := by
  rcases assignResult_eq_some h with ⟨v, rfl, -, rfl⟩ | ⟨v, rfl, -, rfl⟩ | ⟨v, rfl, -, rfl⟩ | ⟨v, rfl, -, rfl⟩ |
      ⟨v, rfl, -, rfl⟩ <;>
    simp [Result.name, Wires.has]

/-- Two sets of names in which the same name has been given the same value agree wherever they agreed before. -/
theorem assignResult_agreeAt_both {ws₁ ws₁' ws₂ ws₂' : Wires} {n : Nat} {r : Result}
    (h₁ : ws₁.assignResult n r = some ws₁') (h₂ : ws₂.assignResult n r = some ws₂') {nm : Name}
    (h : ws₁.agreeAt ws₂ nm) : ws₁'.agreeAt ws₂' nm := by
  cases r <;> simp only [Wires.assignResult, Option.map_eq_some_iff, assign_eq_some] at h₁ h₂ <;>
    obtain ⟨_, ⟨-, rfl⟩, rfl⟩ := h₁ <;> obtain ⟨_, ⟨-, rfl⟩, rfl⟩ := h₂ <;>
    cases nm <;> simp only [Wires.agreeAt, List.lookup_cons] at h ⊢ <;> (try exact h) <;> split <;>
    first
      | rfl
      | exact h

theorem agreeAt_has {ws ws' : Wires} {nm : Name} (h : ws.agreeAt ws' nm) : ws.has nm = ws'.has nm := by
  cases nm <;> simp only [Wires.agreeAt] at h <;> simp [Wires.has, h]

/-! ### What a line gives -/

/-- What a line gives: nothing if it cannot run, else the result it names, if it names one. -/
def State.gives (s : State) : Line → Option (Option (Nat × Result))
  | .operation op d dest =>
    match operationOf op, s.drivenInputs d with
    | some i, .ok inp =>
      some (match dest, resultAfter (exec i { s with inputs := inp }) with
        | some n, some r => some (n, r)
        | _, _ => none)
    | _, _ => none
  | .unwrap dest src =>
    match s.wires.o.lookup src with
    | some (some t) => some (some (dest, .triple t))
    | _ => none
  | .nameWord dest w => some (some (dest, .word w))

/-- The names after a line has given what it gives. -/
def Wires.given (ws ws' : Wires) : Option (Nat × Result) → Prop
  | some (n, r) => ws.assignResult n r = some ws'
  | none => ws' = ws

/-- A line that runs gives something, and adds it to the names. -/
theorem runLine_gives {l : Line} {s t : State} (h : runLine l s = .next t) :
    ∃ g, s.gives l = some g ∧ s.wires.given t.wires g ∧ t.pending = s.pending := by
  rcases runLine_eq_next h with ⟨op, d, dest, i, rest, rfl, hd, ha⟩ | ⟨dest, src, rfl, hu⟩ | ⟨dest, w, rfl, hw⟩
  · obtain ⟨inp, r, hin, he, hn⟩ := apply_eq_next ha
    have hg : s.gives (.operation op d dest) = some (dest.map fun n => (n, r)) := by
      simp only [State.gives, operationOf_of_decode hd, hin, he]
      cases dest <;> rfl
    refine ⟨_, hg, ?_⟩
    cases dest with
    | none =>
      simp only [State.nameLast, Host.Outcome.next.injEq] at hn
      subst hn
      exact ⟨rfl, rfl⟩
    | some n =>
      obtain ⟨ws, hws, rfl⟩ := nameResult_eq_next (r := r) hn
      exact ⟨hws, rfl⟩
  · obtain ⟨d, hl, hn⟩ := unwrap_eq_next hu
    obtain ⟨ws, hws, rfl⟩ := nameResult_eq_next hn
    exact ⟨some (dest, .triple d), by simp only [State.gives, hl], hws, rfl⟩
  · obtain ⟨ws, hws, rfl⟩ := nameResult_eq_next hw
    exact ⟨some (dest, .word w), rfl, hws, rfl⟩

/-- A line that gives something runs, if the name it gives it is free. -/
theorem runLine_of_gives {l : Line} {s : State} {g : Option (Nat × Result)} {ws : Wires} (h : s.gives l = some g)
    (hw : s.wires.given ws g) : ∃ t, runLine l s = .next t ∧ t.wires = ws ∧ t.pending = s.pending := by
  cases l with
  | operation op d dest =>
    simp only [State.gives] at h
    split at h
    · next i inp hi hin =>
      have hd : ∃ rest, decode [op] = .ok i rest := by
        unfold operationOf at hi; split at hi <;> cases hi
        next rest hd => exact ⟨rest, hd⟩
      obtain ⟨rest, hd⟩ := hd
      obtain ⟨r, hr⟩ := exec_reports i { s with inputs := inp }
      rw [hr] at h
      simp only [Option.some.injEq, resultAfter, stateAfter, Option.bind_some, State.report_result] at h
      simp only [runLine, hd, State.apply, hin, hr, nameAfter]
      cases dest with
      | none => subst h; cases hw; exact ⟨_, rfl, rfl, rfl⟩
      | some n =>
        subst h
        have hw : s.wires.assignResult n r = some ws := hw
        exact ⟨{ State.report { s with inputs := inp } r with wires := ws }, by
          simp [State.nameLast, State.nameResult, hw], rfl, rfl⟩
    · cases h
  | unwrap dest src =>
    simp only [State.gives] at h
    split at h
    · next t ht =>
      cases h
      have hw : s.wires.assignResult dest (.triple t) = some ws := hw
      exact ⟨{ s with wires := ws }, by simp [runLine, State.unwrap, ht, State.nameResult, hw], rfl, rfl⟩
    · cases h
  | nameWord dest w =>
    cases h
    have hw : s.wires.assignResult dest (.word w) = some ws := hw
    exact ⟨{ s with wires := ws }, by simp [runLine, State.nameResult, hw], rfl, rfl⟩

/-- The name a line assigns is that of what it gives. -/
theorem assigns_of_gives {l : Line} {s : State} {g : Option (Nat × Result)} (h : s.gives l = some g) :
    l.assigns = g.map fun x => x.2.name x.1 := by
  cases l with
  | operation op d dest =>
    simp only [State.gives] at h
    split at h
    · next i inp hi hin =>
      cases h
      cases dest with
      | none => simp [Line.assigns, hi]
      | some n => simp only [Line.assigns, hi]; cases i <;> rfl
    · cases h
  | unwrap dest src =>
    simp only [State.gives] at h
    split at h <;> cases h
    rfl
  | nameWord dest w => cases h; rfl

/-! ### It depends on the names read alone -/

theorem bits_of_agreeAt {ws ws' : Wires} {x : NamePart} (h : ws.agreeAt ws' x.name) : ws.bits x = ws'.bits x := by
  cases x <;> simp only [NamePart.name, Wires.agreeAt] at h <;> simp [Wires.bits, h]

theorem bits_isSome {ws : Wires} {x : NamePart} (h : ws.has x.name = true) : ∃ v, ws.bits x = some v := by
  rw [← Option.isSome_iff_exists]
  cases x <;> simp only [NamePart.name, Wires.has] at h <;> simp [Wires.bits, h]

theorem mem_names {d : Drives} {x : InBus} {nm : Name} (h : sourceName (d.at x) = some nm) : nm ∈ d.names :=
  List.mem_filterMap.2 ⟨x, x.mem_all, h⟩

/-- What a line places on a port that it drives with a literal or a name depends on that name alone. -/
theorem placedBus_congr {w : Nat} {ws ws' : Wires} {src : Option (Source w)} (hn : src ≠ none)
    (hw : wiredFrom src = none) (hs : ∀ nm, sourceName src = some nm → ws.has nm = true)
    (h : ∀ nm, sourceName src = some nm → ws.agreeAt ws' nm) (held held' : BitVec w) :
    placedBus ws held src = placedBus ws' held' src := by
  rcases src with _ | _ | ⟨x, lo⟩ | _
  · exact absurd rfl hn
  · rfl
  · obtain ⟨v, hv⟩ := bits_isSome (hs _ rfl)
    simp [placedBus, hv, (bits_of_agreeAt (h _ rfl)).symm.trans hv]
  · cases hw

theorem sourceReadsHeld_of_not_wired {w : Nat} {k : PortGroup → Bool} {src : Option (Source w)}
    (h : sourceReadsHeld k src = false) : src ≠ none ∧ ∀ g, wiredFrom src = some g → k g = false := by
  rcases src with _ | _ | _ | _ <;> simp_all [sourceReadsHeld, wiredFrom]

/-- What the ports of a group are driven with, if its outputs depend on no held value: every port is driven, and those
that are wired are wired to groups of which the same is true. -/
theorem readsHeld_succ {d : Drives} {k : Nat} {g : PortGroup} (h : d.readsHeld (k + 1) g = false) {x : InBus}
    (hx : x.group = g) : d.at x ≠ none ∧ ∀ g', wiredFrom (d.at x) = some g' → d.readsHeld k g' = false := by
  simp only [Drives.readsHeld, List.any_eq_false, Bool.and_eq_true, decide_eq_true_eq, not_and,
    Bool.not_eq_true] at h
  exact sourceReadsHeld_of_not_wired (h x x.mem_all hx)

/-- The ports that a line places are the same from two sets of names that agree on those it reads, but for the ports it
does not drive. -/
theorem placed_congr {s s' : State} {d : Drives} {placed placed' : Inputs}
    (h : ∀ nm ∈ d.names, s.wires.agreeAt s'.wires nm) (hp : s.placedInputs d = .ok placed)
    (hp' : s'.placedInputs d = .ok placed') {x : InBus} (hn : d.at x ≠ none) (hw : wiredFrom (d.at x) = none) :
    placed.at x = placed'.at x := by
  obtain ⟨hs, rfl⟩ := placedInputs_eq_ok.1 hp
  obtain ⟨-, rfl⟩ := placedInputs_eq_ok.1 hp'
  rw [at_ofBuses, at_ofBuses]
  exact placedBus_congr hn hw (fun nm hnm => hs nm (mem_names hnm)) (fun nm hnm => h nm (mem_names hnm)) _ _

/-- Two states with the same values on the ports that a line places. -/
def State.PlacedAlike (s t : State) (d : Drives) : Prop :=
  ∀ x, d.at x ≠ none → wiredFrom (d.at x) = none → s.inputs.at x = t.inputs.at x

/-- Where nothing held is read, a group is driven alike before any pass. -/
theorem agreeOn_of_placedAlike {s t : State} {d : Drives} {g : PortGroup} (h : s.PlacedAlike t d)
    (hg : d.readsHeld 1 g = false) : s.AgreeOn t g := fun x hx => by
  obtain ⟨hn, hw⟩ := readsHeld_succ hg hx
  refine h x hn (Option.eq_none_iff_forall_ne_some.2 fun g' hg' => ?_)
  simpa [Drives.readsHeld] using hw g' hg'

/-- Each pass brings the values of one more group. -/
theorem passWiring_alike {s t : State} {d : Drives} {k : Nat} (hl : d.loops = false) (hd : s.draws = t.draws)
    (h : s.PlacedAlike t d) (hk : ∀ g, d.readsHeld k g = false → s.AgreeOn t g) :
    (s.passWiring d).PlacedAlike (t.passWiring d) d ∧
      ∀ g, d.readsHeld (k + 1) g = false → (s.passWiring d).AgreeOn (t.passWiring d) g := by
  have hc : ∀ x, d.closes x = false := fun x => by
    simpa using List.any_eq_false.1 hl x x.mem_all
  refine ⟨fun x hn hw => ?_, fun g hg => passWiring_agreeOn hd (fun x hx hw => ?_) fun g' hg' _ => ?_⟩
  · rw [passWiring_keeps s (.inl hw), passWiring_keeps t (.inl hw)]
    exact h x hn hw
  · exact h x (readsHeld_succ hg hx).1 (hw.resolve_right (by simp [hc x]))
  · simp only [Drives.feeds, List.any_eq_true, Bool.and_eq_true, decide_eq_true_eq] at hg'
    obtain ⟨x, -, hx, hw⟩ := hg'
    exact hk g' ((readsHeld_succ hg hx).2 g' hw)

/-- Direct wiring is a pure function (R169): settled, a group whose outputs depend on no held value is driven alike. -/
theorem settled_alike {s t : State} {d : Drives} {g : PortGroup} (hl : d.loops = false) (hd : s.draws = t.draws)
    (h : s.PlacedAlike t d) (hg : d.readsHeld 3 g = false) : (s.settled d).AgreeOn (t.settled d) g := by
  obtain ⟨h₁, k₁⟩ := passWiring_alike hl hd h fun g => agreeOn_of_placedAlike h (g := g)
  exact (passWiring_alike hl (show (s.passWiring d).draws = (t.passWiring d).draws from hd) h₁ k₁).2 g hg

theorem wiredFrom_of_notation {w : Nat} {src : Option (Source w)} (h : sourceInNotation src = true) :
    wiredFrom src = none := by
  rcases src with _ | _ | _ | _ <;> first | rfl | cases h

/-- The result of an operation depends on the operands of its port group alone. -/
theorem result_congr (i : Instr) {s t : State} (h : s.AgreeOn t (portGroupOf i)) :
    resultAfter (exec i s) = resultAfter (exec i t) := by
  cases i <;> simp only [portGroupOf] at h <;>
    simp only [exec, execDecomp, execRecomp, execCmp, execLt, execLe, execGt, execGe, execEq, execNe, execMin, execMax,
      resultAfter, stateAfter, Option.bind_some, State.report_result, State.operandW, State.operandR, State.operandA,
      State.operandB] <;>
    first
      | rw [agreeOn_decomp h]
      | rw [agreeOn_recomp h]
      | rw [(agreeOn_comparator h).1, (agreeOn_comparator h).2]

/-- The ports of the group that a line reads are driven alike from two states that agree on the names it reads, if its
result depends on no held value, and on the count of evaluations as well if it wires an output. -/
theorem driven_agreeOn {s s' : State} {op : Byte} {d : Drives} {dest : Option Nat} {i : Instr} {inp : Inputs}
    (hi : operationOf op = some i) (hr : (Line.operation op d dest).readsPorts = false)
    (hd : s.draws = s'.draws ∨ ∀ x, wiredFrom (d.at x) = none)
    (h : ∀ nm ∈ d.names, s.wires.agreeAt s'.wires nm) (hin : s.drivenInputs d = .ok inp) :
    ∃ inp', s'.drivenInputs d = .ok inp' ∧
      State.AgreeOn { s with inputs := inp } { s' with inputs := inp' } (portGroupOf i) := by
  simp only [Line.readsPorts, hi, Bool.or_eq_false_iff] at hr
  obtain ⟨hl, hheld⟩ := hr
  obtain ⟨placed, hp, -⟩ := drivenInputs_eq_ok hin
  have hs := (placedInputs_eq_ok.1 hp).1
  obtain ⟨placed', hp'⟩ : ∃ p, s'.placedInputs d = .ok p :=
    ⟨_, placedInputs_eq_ok.2 ⟨fun nm hnm => (agreeAt_has (h nm hnm)).symm.trans (hs nm hnm), rfl⟩⟩
  have ha : State.PlacedAlike { s with inputs := placed } { s' with inputs := placed' } d := fun x hn hw =>
    placed_congr h hp hp' hn hw
  rcases hd with hd | hw
  · rw [drivenInputs_of_placed hp, afterWiring_of_no_loops _ _ hl] at hin
    cases hin
    refine ⟨_, (drivenInputs_of_placed hp').trans (by rw [afterWiring_of_no_loops _ _ hl]), ?_⟩
    exact settled_alike (s := { s with inputs := placed }) (t := { s' with inputs := placed' }) hl hd ha hheld
  · obtain rfl : placed = inp := by simpa [drivenInputs_of_not_wired hp hw] using hin
    exact ⟨placed', drivenInputs_of_not_wired hp' hw, fun x hx => ha x (readsHeld_succ hheld hx).1 (hw x)⟩

/-- What a line gives depends on the names it reads alone, if its result depends on no held value, and on the count of
evaluations as well if it wires an output. -/
theorem gives_congr {l : Line} {s s' : State} {g : Option (Nat × Result)} (hr : l.readsPorts = false)
    (hd : s.draws = s'.draws ∨ l.inNotation = true)
    (h : ∀ nm ∈ l.reads, s.wires.agreeAt s'.wires nm) (hg : s.gives l = some g) : s'.gives l = some g := by
  cases l with
  | operation op d dest =>
    simp only [State.gives] at hg ⊢
    split at hg
    · next i inp hi hin =>
      simp only [Line.reads, hi] at h
      obtain ⟨inp', hin', ha⟩ := driven_agreeOn hi hr (hd.imp_right fun hn x => by
        simp only [Line.inNotation, Bool.and_eq_true, List.all_eq_true] at hn
        exact wiredFrom_of_notation (hn.1 x x.mem_all)) h hin
      rw [hi, hin', ← hg, result_congr i ha]
    · cases hg
  | unwrap dest src =>
    have h : s.wires.o.lookup src = s'.wires.o.lookup src := h (.o src) (by simp [Line.reads])
    simpa [State.gives, h] using hg
  | nameWord dest w => exact hg

/-- Everything that a triple port can be driven with whose exponent and mantissa come from construction. -/
theorem constructed_cases {t : TripleDrive} (h : t.constructed = true) :
    (t.exp = none ∧ t.mant = none) ∨
    (∃ e m, t.exp = some (.lit e) ∧ t.mant = some (.lit m) ∧ DF.wf { mantissa := m, exponent := e, sign := true } = true) ∨
    (∃ n, t.exp = some (.name (.tExp n) 0) ∧ t.mant = some (.name (.tMant n) 0)) ∨
    (t.exp = some (.out .minExp 0) ∧ t.mant = some (.out .minMant 0)) ∨
    (t.exp = some (.out .maxExp 0) ∧ t.mant = some (.out .maxMant 0)) := by
  obtain ⟨_, e, m⟩ := t
  rcases e with _ | e | ⟨x, lo⟩ | ⟨p, lo⟩
  · exact .inl ⟨rfl, by simpa [TripleDrive.constructed] using h⟩
  · rcases m with _ | m | _ | _ <;> first | cases h | exact .inr (.inl ⟨e, m, rfl, rfl, h⟩)
  · cases x <;> first | cases h | skip
    next n =>
    simp only [TripleDrive.constructed, Bool.and_eq_true, decide_eq_true_eq] at h
    obtain ⟨rfl, rfl⟩ := h
    exact .inr (.inr (.inl ⟨n, rfl, rfl⟩))
  · simp only [TripleDrive.constructed, Bool.and_eq_true, Bool.or_eq_true, decide_eq_true_eq] at h
    obtain ⟨rfl, ⟨rfl, rfl⟩ | ⟨rfl, rfl⟩⟩ := h <;> simp

theorem readsPorts_of_inNotation {l : Line} (h : l.inNotation = true) : l.readsPorts = false := by
  cases l with
  | operation op d dest =>
    simp only [Line.inNotation, Bool.and_eq_true, Bool.not_eq_true'] at h
    exact h.2
  | unwrap dest src => rfl
  | nameWord dest w => rfl

end Sys2Proof.Machine
end

