-- ==== Sys2Proof/Laws/PerInstr.lean ====
section
/-! SUPPORT. Statements made for each operation: the family `OneByte` says that an operation's encoding is one byte whose
high half is zero. -/

namespace Sys2Proof.Laws.OneByte

/-- The operation is encoded in one byte, whose value is a 4-bit number. -/
def Statement (i : Instr) : Prop :=
  ∃ b : Byte, encode i = [b] ∧ b.toNat < 16

theorem decomp : Statement .decomp := ⟨_, rfl, by decide⟩
theorem recomp : Statement .recomp := ⟨_, rfl, by decide⟩
theorem cmp : Statement .cmp := ⟨_, rfl, by decide⟩
theorem lt : Statement .lt := ⟨_, rfl, by decide⟩
theorem le : Statement .le := ⟨_, rfl, by decide⟩
theorem gt : Statement .gt := ⟨_, rfl, by decide⟩
theorem ge : Statement .ge := ⟨_, rfl, by decide⟩
theorem eq : Statement .eq := ⟨_, rfl, by decide⟩
theorem ne : Statement .ne := ⟨_, rfl, by decide⟩
theorem min : Statement .min := ⟨_, rfl, by decide⟩
theorem max : Statement .max := ⟨_, rfl, by decide⟩

end Sys2Proof.Laws.OneByte
end

