-- ==== Sys2Proof/Laws/Units.lean ====
section
/-! SUPPORT. What the functions of the two units give, said once: construction field by field, reconstruction bit by bit,
well-formedness without integers, and the order as the order of one integer key. -/

namespace Sys2Proof.Machine

/-! ### Words and triples -/

theorem efield_eq_zero_iff (e : BitVec 11) : e.toNat = 0 ↔ e = 0#11 := by
  rw [← BitVec.toNat_inj]; rfl

theorem efield_eq_top_iff (e : BitVec 11) : e.toNat = 2047 ↔ e = 2047#11 := by
  rw [← BitVec.toNat_inj]; rfl

theorem isFinite_iff (w : Word) : isFinite w = true ↔ efield w ≠ 2047#11 := by
  simp [isFinite, efield_eq_top_iff]

theorem decompose_eq_none_iff (w : Word) : decompose w = none ↔ efield w = 2047#11 := by
  rw [← efield_eq_top_iff]; unfold decompose; split <;> simp_all

/-- Construction, field by field. -/
theorem decompose_eq_some_iff (w : Word) (d : DF) :
    decompose w = some d ↔ efield w ≠ 2047#11 ∧ d.sign = decide (sbit w = 0#1) ∧
      d.exponent = (efield w).setWidth 16 ∧
      d.mantissa = if efield w = 0#11 then (frac w).setWidth 64 <<< 1 else (frac w).setWidth 64 ||| bit52 := by
  obtain ⟨m, e, s⟩ := d
  simp only [decompose, efield_eq_zero_iff, efield_eq_top_iff]
  split
  · next h => simp [h]
  · next h =>
    simp only [h, Option.some.injEq, DF.mk.injEq, ne_eq, not_false_eq_true, true_and]
    exact ⟨fun ⟨h₁, h₂, h₃⟩ => ⟨h₃.symm, h₂.symm, h₁.symm⟩, fun ⟨h₁, h₂, h₃⟩ => ⟨h₃.symm, h₂.symm, h₁.symm⟩⟩

theorem mask52_getLsbD (i : Nat) : mask52.getLsbD i = decide (i < 52) := by
  by_cases h : i < 64
  · interval_cases i <;> rfl
  · rw [BitVec.getLsbD_of_ge _ _ (by omega)]; simp; omega

theorem bit52_getLsbD (i : Nat) : bit52.getLsbD i = decide (i = 52) := by
  by_cases h : i < 64
  · interval_cases i <;> rfl
  · rw [BitVec.getLsbD_of_ge _ _ (by omega)]; simp; omega

theorem bit63_getLsbD (i : Nat) : bit63.getLsbD i = decide (i = 63) := by
  by_cases h : i < 64
  · interval_cases i <;> rfl
  · rw [BitVec.getLsbD_of_ge _ _ (by omega)]; simp; omega

/-- Reconstruction, bit by bit, in the subnormal case. -/
theorem recompose_getLsbD_of_le (d : DF) (h : d.exponent.toInt ≤ 0) (i : Nat) :
    (recompose d).getLsbD i =
      ((!d.sign && decide (i = 63)) || (decide (i < 52) && d.mantissa.getLsbD (i + 1))) := by
  simp only [recompose, if_pos h]
  cases d.sign <;>
    simp [mask52_getLsbD, bit63_getLsbD, Bool.and_comm, Nat.add_comm]

/-- Reconstruction, bit by bit, in the normal case. -/
theorem recompose_getLsbD_of_pos (d : DF) (h : 0 < d.exponent.toInt) (i : Nat) :
    (recompose d).getLsbD i =
      ((!d.sign && decide (i = 63)) || (decide (52 ≤ i ∧ i < 64) && d.exponent.getLsbD (i - 52)) ||
        (decide (i < 52) && d.mantissa.getLsbD i)) := by
  simp only [recompose, if_neg (show ¬ d.exponent.toInt ≤ 0 by omega)]
  have h₁ : (if d.sign = true then 0#64 else bit63).getLsbD i = (!d.sign && decide (i = 63)) := by
    cases d.sign <;> simp [bit63_getLsbD]
  simp only [BitVec.getLsbD_or, BitVec.getLsbD_and, BitVec.getLsbD_shiftLeft, BitVec.getLsbD_setWidth,
    mask52_getLsbD, h₁]
  by_cases h₂ : i < 52
  · have h₃ : ¬ 52 ≤ i := by omega
    simp only [h₂, h₃]; simp
  · have h₃ : 52 ≤ i := by omega
    by_cases h₄ : i < 64
    · simp only [h₂, h₃, h₄, show i - 52 < 64 by omega]; simp
    · simp only [h₂, h₃, h₄]; simp

theorem exponent_eq_zero_iff (e : BitVec 16) : e.toInt = 0 ↔ e = 0#16 := by
  rw [← BitVec.toInt_inj]; rfl

/-- Well-formedness as a condition on natural numbers and bit fields. -/
theorem wf_iff (d : DF) :
    d.wf = true ↔ d.exponent.toNat ≤ 2046 ∧
      (if d.exponent = 0#16 then d.mantissa.extractLsb 63 53 = 0#11 ∧ d.mantissa.extractLsb 0 0 = 0#1
        else d.mantissa.extractLsb 63 52 = 1#12) := by
  have h : (0 ≤ d.exponent.toInt ∧ d.exponent.toInt ≤ 2046) ↔ d.exponent.toNat ≤ 2046 := by
    have := d.exponent.isLt
    rw [BitVec.toInt_eq_toNat_cond]; split <;> omega
  rw [← h]
  unfold DF.wf DF.exponentInRange DF.subnormalMantissa DF.normalMantissa
  simp only [exponent_eq_zero_iff]
  split <;> simp

/-! ### The order -/

theorem cmpMagnitude_less_iff (a b : DF) :
    cmpMagnitude a b = .less ↔ a.exponent.toInt < b.exponent.toInt ∨
      (a.exponent.toInt = b.exponent.toInt ∧ a.mantissa.toNat < b.mantissa.toNat) := by
  rw [BitVec.toInt_inj]
  unfold cmpMagnitude
  split
  · next h => simp [cmpU_less_iff, (cmpS_equal_iff _ _).1 h]
  · next h => simp [(cmpS_less_iff _ _).1 h]
  · next h =>
    have h := (cmpS_greater_iff _ _).1 h
    simp only [reduceCtorEq, false_iff, not_or, not_and]
    exact ⟨by omega, fun he => by rw [he] at h; omega⟩

theorem cmpMagnitude_greater_iff (a b : DF) :
    cmpMagnitude a b = .greater ↔ b.exponent.toInt < a.exponent.toInt ∨
      (a.exponent.toInt = b.exponent.toInt ∧ b.mantissa.toNat < a.mantissa.toNat) := by
  rw [BitVec.toInt_inj]
  unfold cmpMagnitude
  split
  · next h => simp [cmpU_greater_iff, (cmpS_equal_iff _ _).1 h]
  · next h =>
    have h := (cmpS_less_iff _ _).1 h
    simp only [reduceCtorEq, false_iff, not_or, not_and]
    exact ⟨by omega, fun he => by rw [he] at h; omega⟩
  · next h => simp [(cmpS_greater_iff _ _).1 h]

/-- One integer that orders triples as CMP does: exponent and mantissa side by side, and the negatives mirrored below the
non-negatives. -/
def orderKey (d : DF) : ℤ :=
  let magnitude : ℤ := (d.exponent.toInt + 2 ^ 15) * 2 ^ 64 + d.mantissa.toNat
  if d.sign then magnitude else -1 - magnitude

theorem compareDF_less_iff (a b : DF) : compareDF a b = .less ↔ orderKey a < orderKey b := by
  have ha := a.mantissa.isLt
  have hb := b.mantissa.isLt
  have ea := BitVec.le_toInt a.exponent
  have eb := BitVec.le_toInt b.exponent
  have hg := cmpMagnitude_greater_iff a b
  have hl := cmpMagnitude_less_iff a b
  unfold compareDF orderKey
  cases a.sign <;> cases b.sign <;> simp
  · rcases h : cmpMagnitude a b with _ | _ | _ <;> simp [revOrd] <;> rw [h] at hl hg <;> simp at hl hg <;> omega
  · omega
  · omega
  · rw [hl]; omega

theorem compareDF_greater_iff (a b : DF) : compareDF a b = .greater ↔ orderKey b < orderKey a := by
  have ha := a.mantissa.isLt
  have hb := b.mantissa.isLt
  have ea := BitVec.le_toInt a.exponent
  have eb := BitVec.le_toInt b.exponent
  have hg := cmpMagnitude_greater_iff a b
  have hl := cmpMagnitude_less_iff a b
  unfold compareDF orderKey
  cases a.sign <;> cases b.sign <;> simp
  · rcases h : cmpMagnitude a b with _ | _ | _ <;> simp [revOrd] <;> rw [h] at hl hg <;> simp at hl hg <;> omega
  · omega
  · omega
  · rw [hg]; omega

theorem compareDF_equal_iff_key (a b : DF) : compareDF a b = .equal ↔ orderKey a = orderKey b := by
  have hl := compareDF_less_iff a b
  have hg := compareDF_greater_iff a b
  rcases h : compareDF a b with _ | _ | _ <;> simp [h] at hl hg ⊢ <;> omega

/-- The key loses nothing: it is one-to-one on triples. -/
theorem orderKey_injective {a b : DF} (h : orderKey a = orderKey b) : a = b := by
  have ha := a.mantissa.isLt
  have hb := b.mantissa.isLt
  have ea := BitVec.le_toInt a.exponent
  have eb := BitVec.le_toInt b.exponent
  obtain ⟨ma, xa, sa⟩ := a
  obtain ⟨mb, xb, sb⟩ := b
  simp only [orderKey] at h
  simp only [DF.mk.injEq, ← BitVec.toInt_inj (x := xa), ← BitVec.toNat_inj (x := ma)]
  cases sa <;> cases sb <;> simp at h ⊢ <;> simp only at ha hb ea eb <;> omega

theorem equalDF_iff (a b : DF) : equalDF a b = true ↔ a = b := by
  obtain ⟨ma, xa, sa⟩ := a
  obtain ⟨mb, xb, sb⟩ := b
  simp [equalDF, and_comm]

theorem minDF_eq_ite (a b : DF) : minDF a b = if compareDF a b = .greater then b else a := by
  unfold minDF; split <;> simp_all

theorem maxDF_eq_ite (a b : DF) : maxDF a b = if compareDF a b = .greater then a else b := by
  unfold maxDF; split <;> simp_all

end Sys2Proof.Machine
end

