-- ==== Sys2Proof/Tests/Slice0.lean ====
section
/-! SUPPORT. The model's own tests, and a witness for each statement that has hypotheses. Expected results are taken from
spec/95_test_vectors.md and from the encodings and examples of the rules named. -/

namespace Sys2Proof.Tests

open Sys2Proof.Machine

/-- The state after reset with given values on the input ports. -/
def withInputs (f : Word) (r a b : DF) : State :=
  { State.reset with inputs := { fIn := f, r := tripleOnPort r, a := tripleOnPort a, b := tripleOnPort b } }

/-- The result of one step that runs the operation of number `op` on given port values. -/
def resultOf (op : Nat) (f : Word) (r a b : DF) : Option Result :=
  resultAfter (step ((withInputs f r a b).withFetchWord 8 op))

def one : DF := ⟨0x0010000000000000, 1023, true⟩
def minusOne : DF := ⟨0x0010000000000000, 1023, false⟩
def two : DF := ⟨0x0010000000000000, 1024, true⟩

/-! ### Well-formedness: an ill-formed term for each check -/

theorem test_wf_accepts : one.wf = true ∧ negZero.wf = true ∧ posZero.wf = true := by decide
theorem test_wf_refuses_negative_exponent : (⟨0, 0xFFFF, true⟩ : DF).wf = false := by decide
theorem test_wf_refuses_exponent_2047 : (⟨0x0010000000000000, 2047, true⟩ : DF).wf = false := by decide
theorem test_wf_refuses_odd_subnormal_mantissa : (⟨3, 0, true⟩ : DF).wf = false := by decide
theorem test_wf_refuses_large_subnormal_mantissa : (⟨0x0020000000000000, 0, true⟩ : DF).wf = false := by decide
theorem test_wf_refuses_normal_without_bit52 : (⟨0, 1, true⟩ : DF).wf = false := by decide
theorem test_wf_refuses_normal_above_bit52 : (⟨0x0030000000000000, 1, true⟩ : DF).wf = false := by decide
theorem test_opAssigned_refuses_unassigned : opAssigned 0xB#8 = false ∧ opAssigned 0xA#8 = true := by decide

/-! ### Decoding: every operation number of R66, written out -/

theorem test_decode_decomp : decode [0b0000#8, 0xFF#8] = .ok .decomp [0xFF#8] := by decide
theorem test_decode_recomp : decode [0b0001#8] = .ok .recomp [] := by decide
theorem test_decode_cmp : decode [0b0010#8] = .ok .cmp [] := by decide
theorem test_decode_lt : decode [0b0011#8] = .ok .lt [] := by decide
theorem test_decode_le : decode [0b0100#8] = .ok .le [] := by decide
theorem test_decode_gt : decode [0b0101#8] = .ok .gt [] := by decide
theorem test_decode_ge : decode [0b0110#8] = .ok .ge [] := by decide
theorem test_decode_eq : decode [0b0111#8] = .ok .eq [] := by decide
theorem test_decode_ne : decode [0b1000#8] = .ok .ne [] := by decide
theorem test_decode_min : decode [0b1001#8] = .ok .min [] := by decide
theorem test_decode_max : decode [0b1010#8] = .ok .max [] := by decide
theorem test_decode_unassigned : decode [0xB#8] = .noSuchOperation 0xB#8 ∧ decode [0xF#8] = .noSuchOperation 0xF#8 := by
  decide
theorem test_decode_above_four_bits : decode [0x10#8] = .notAnOperationNumber 0x10#8 := by decide
theorem test_decodeTableWord : decodeTableWord 8 0x9 = some .min ∧ decodeTableWord 8 0xB = none := by decide

/-! ### The operations, one step each -/

/-- Vectors DV1 to DV24 of spec/95_test_vectors.md. -/
def decompRows : List (Word × Option DF) :=
  [(0x0000000000000000, some ⟨0x0000000000000000, 0x0000, true⟩),
    (0x8000000000000000, some ⟨0x0000000000000000, 0x0000, false⟩),
    (0x0000000000000001, some ⟨0x0000000000000002, 0x0000, true⟩),
    (0x8000000000000001, some ⟨0x0000000000000002, 0x0000, false⟩),
    (0x0008000000000000, some ⟨0x0010000000000000, 0x0000, true⟩),
    (0x000FFFFFFFFFFFFF, some ⟨0x001FFFFFFFFFFFFE, 0x0000, true⟩),
    (0x800FFFFFFFFFFFFF, some ⟨0x001FFFFFFFFFFFFE, 0x0000, false⟩),
    (0x0010000000000000, some ⟨0x0010000000000000, 0x0001, true⟩),
    (0x0010000000000001, some ⟨0x0010000000000001, 0x0001, true⟩),
    (0x8010000000000000, some ⟨0x0010000000000000, 0x0001, false⟩),
    (0x3FF0000000000000, some ⟨0x0010000000000000, 0x03FF, true⟩),
    (0xBFF0000000000000, some ⟨0x0010000000000000, 0x03FF, false⟩),
    (0x4000000000000000, some ⟨0x0010000000000000, 0x0400, true⟩),
    (0x3FE0000000000000, some ⟨0x0010000000000000, 0x03FE, true⟩),
    (0x7FEFFFFFFFFFFFFF, some ⟨0x001FFFFFFFFFFFFF, 0x07FE, true⟩),
    (0xFFEFFFFFFFFFFFFF, some ⟨0x001FFFFFFFFFFFFF, 0x07FE, false⟩),
    (0x7FE0000000000000, some ⟨0x0010000000000000, 0x07FE, true⟩),
    (0x7FF0000000000000, none),
    (0xFFF0000000000000, none),
    (0x7FF8000000000000, none),
    (0x7FF0000000000001, none),
    (0xFFF8000000000000, none),
    (0xFFFFFFFFFFFFFFFF, none),
    (0x7FFFFFFFFFFFFFFF, none)]

/-- Vectors RV1 to RV14. -/
def recompRows : List (DF × Word) :=
  [(⟨0x0000000000000000, 0x0000, true⟩, 0x0000000000000000),
    (⟨0x0000000000000000, 0x0000, false⟩, 0x8000000000000000),
    (⟨0x0000000000000002, 0x0000, true⟩, 0x0000000000000001),
    (⟨0x0000000000000002, 0x0000, false⟩, 0x8000000000000001),
    (⟨0x001FFFFFFFFFFFFE, 0x0000, true⟩, 0x000FFFFFFFFFFFFF),
    (⟨0x0010000000000000, 0x0001, true⟩, 0x0010000000000000),
    (⟨0x0010000000000001, 0x0001, true⟩, 0x0010000000000001),
    (⟨0x0010000000000000, 0x0001, false⟩, 0x8010000000000000),
    (⟨0x0010000000000000, 0x03FF, true⟩, 0x3FF0000000000000),
    (⟨0x0013AE147AE147AE, 0x03FF, true⟩, 0x3FF3AE147AE147AE),
    (⟨0x00123D70A3D70A3D, 0x0401, false⟩, 0xC0123D70A3D70A3D),
    (⟨0x001FFFFFFFFFFFFF, 0x07FE, true⟩, 0x7FEFFFFFFFFFFFFF),
    (⟨0x001FFFFFFFFFFFFF, 0x07FE, false⟩, 0xFFEFFFFFFFFFFFFF),
    (⟨0x0010000000000000, 0x07FE, true⟩, 0x7FE0000000000000)]

/-- Vectors RN1 to RN15, triples that are not well-formed. -/
def recompNonWFRows : List (DF × Word) :=
  [(⟨0x0010000000000000, 0x07FF, true⟩, 0x7FF0000000000000),
    (⟨0x0010000000000001, 0x07FF, false⟩, 0xFFF0000000000001),
    (⟨0x0000000000000006, 0xFFFF, true⟩, 0x0000000000000003),
    (⟨0x0010000000000000, 0x8000, false⟩, 0x8008000000000000),
    (⟨0x0000000000000000, 0x0800, true⟩, 0x8000000000000000),
    (⟨0x0000000000000000, 0x0800, false⟩, 0x8000000000000000),
    (⟨0x0010000000000000, 0x0801, true⟩, 0x8010000000000000),
    (⟨0x0010000000000000, 0x1001, true⟩, 0x0010000000000000),
    (⟨0x0010000000000000, 0x7FFF, true⟩, 0xFFF0000000000000),
    (⟨0xFFFFFFFFFFFFFFFF, 0x0001, true⟩, 0x001FFFFFFFFFFFFF),
    (⟨0xFFFFFFFFFFFFFFFF, 0x0000, true⟩, 0x000FFFFFFFFFFFFF),
    (⟨0x0000000000000003, 0x0000, true⟩, 0x0000000000000001),
    (⟨0x0000000000000000, 0x0001, true⟩, 0x0010000000000000),
    (⟨0x0020000000000000, 0x0000, true⟩, 0x0000000000000000),
    (⟨0x0020000000000005, 0x03FF, true⟩, 0x3FF0000000000005)]

/-- Vectors CV1 to CV27: the packed operands, CMP, the six relations in the order lt le gt ge eq ne, and whether MIN is `a`. -/
def cmpRows : List (BitVec 81 × BitVec 81 × Ord3 × List Bool × Bool) :=
  [(0x100000000000000000000, 0x100000000000000000000, .equal, [false, true, false, true, true, false], true),
    (0x000000000000000000000, 0x100000000000000000000, .less, [true, true, false, false, false, true], true),
    (0x100000000000000000000, 0x000000000000000000000, .greater, [false, false, true, true, false, true], false),
    (0x000000000000000000000, 0x000000000000000000000, .equal, [false, true, false, true, true, false], true),
    (0x000000000000000000002, 0x000000000000000000000, .less, [true, true, false, false, false, true], true),
    (0x100000000000000000000, 0x100000000000000000002, .less, [true, true, false, false, false, true], true),
    (0x000000000000000000002, 0x100000000000000000000, .less, [true, true, false, false, false, true], true),
    (0x10000001FFFFFFFFFFFFE, 0x100010010000000000000, .less, [true, true, false, false, false, true], true),
    (0x100010010000000000000, 0x10000001FFFFFFFFFFFFE, .greater, [false, false, true, true, false, true], false),
    (0x00000001FFFFFFFFFFFFE, 0x000010010000000000000, .greater, [false, false, true, true, false, true], false),
    (0x103FF0010000000000000, 0x104000010000000000000, .less, [true, true, false, false, false, true], true),
    (0x103FF0010000000000000, 0x103FF0010000000000001, .less, [true, true, false, false, false, true], true),
    (0x003FF0010000000000000, 0x003FF0010000000000001, .greater, [false, false, true, true, false, true], false),
    (0x003FF0010000000000001, 0x003FF0010000000000000, .less, [true, true, false, false, false, true], true),
    (0x004050019000000000000, 0x0040100123D70A3D70A3D, .less, [true, true, false, false, false, true], true),
    (0x0040100123D70A3D70A3D, 0x004050019000000000000, .greater, [false, false, true, true, false, true], false),
    (0x103FF0013AE147AE147AE, 0x1040900134A456D5CFAAD, .less, [true, true, false, false, false, true], true),
    (0x104050019000000000000, 0x004050019000000000000, .greater, [false, false, true, true, false, true], false),
    (0x007FE001FFFFFFFFFFFFF, 0x100000000000000000000, .less, [true, true, false, false, false, true], true),
    (0x107FE001FFFFFFFFFFFFF, 0x007FE001FFFFFFFFFFFFF, .greater, [false, false, true, true, false, true], false),
    (0x107FE001FFFFFFFFFFFFF, 0x107FE001FFFFFFFFFFFFF, .equal, [false, true, false, true, true, false], true),
    (0x1FFFF0000000000000000, 0x100000000000000000000, .less, [true, true, false, false, false, true], true),
    (0x0FFFF0000000000000000, 0x000000000000000000000, .greater, [false, false, true, true, false, true], false),
    (0x10000FFFFFFFFFFFFFFFF, 0x100010010000000000000, .less, [true, true, false, false, false, true], true),
    (0x17FFF0000000000000000, 0x107FE001FFFFFFFFFFFFF, .greater, [false, false, true, true, false, true], false),
    (0x180000000000000000000, 0x100000000000000000000, .less, [true, true, false, false, false, true], true),
    (0x10005FFFFFFFFFFFFFFFF, 0x100058000000000000000, .greater, [false, false, true, true, false, true], false)]

theorem test_decomp : decompRows.all (fun x =>
    resultOf 0x0 x.1 one one one == some (.optTriple x.2)) = true := by decide
theorem test_recomp : recompRows.all (fun x => resultOf 0x1 0 x.1 one one == some (.word x.2)) = true := by decide
theorem test_recomp_not_well_formed :
    recompNonWFRows.all (fun x => resultOf 0x1 0 x.1 one one == some (.word x.2)) = true := by decide
theorem test_cmp : cmpRows.all (fun x =>
    resultOf 0x2 0 one (unpackDF x.1) (unpackDF x.2.1) == some (.order x.2.2.1)) = true := by decide
theorem test_lt : cmpRows.all (fun x =>
    resultOf 0x3 0 one (unpackDF x.1) (unpackDF x.2.1) == (x.2.2.2.1[0]?).map .bool) = true := by decide
theorem test_le : cmpRows.all (fun x =>
    resultOf 0x4 0 one (unpackDF x.1) (unpackDF x.2.1) == (x.2.2.2.1[1]?).map .bool) = true := by decide
theorem test_gt : cmpRows.all (fun x =>
    resultOf 0x5 0 one (unpackDF x.1) (unpackDF x.2.1) == (x.2.2.2.1[2]?).map .bool) = true := by decide
theorem test_ge : cmpRows.all (fun x =>
    resultOf 0x6 0 one (unpackDF x.1) (unpackDF x.2.1) == (x.2.2.2.1[3]?).map .bool) = true := by decide
theorem test_eq : cmpRows.all (fun x =>
    resultOf 0x7 0 one (unpackDF x.1) (unpackDF x.2.1) == (x.2.2.2.1[4]?).map .bool) = true := by decide
theorem test_ne : cmpRows.all (fun x =>
    resultOf 0x8 0 one (unpackDF x.1) (unpackDF x.2.1) == (x.2.2.2.1[5]?).map .bool) = true := by decide
theorem test_min : cmpRows.all (fun x =>
    resultOf 0x9 0 one (unpackDF x.1) (unpackDF x.2.1) ==
      some (.triple (unpackDF (if x.2.2.2.2 then x.1 else x.2.1)))) = true := by decide
theorem test_max : cmpRows.all (fun x =>
    resultOf 0xA 0 one (unpackDF x.1) (unpackDF x.2.1) ==
      some (.triple (unpackDF (if x.2.2.2.2 then x.2.1 else x.1)))) = true := by decide

/-! ### Output ports -/

/-- DV8 at the ports. -/
theorem test_ports_of_present_result :
    let o := (withInputs 0x0010000000000000 one one one).outputs
    o.dValid = 1#1 ∧ o.d = ⟨1#1, 1#16, 0x0010000000000000#64⟩ := by decide

/-- DV18: d_valid is 0 for +infinity. -/
theorem test_ports_of_absent_result : (withInputs 0x7FF0000000000000 one one one).outputs.dValid = 0#1 := by decide

/-- CV2 at the ports: `ord` is `0b11`, MIN is -0.0 (`min_sign = 0`), MAX is +0.0. -/
theorem test_ports_of_zeros :
    let o := (withInputs 0 one negZero posZero).outputs
    o.ord = 0b11#2 ∧ o.lt = 1#1 ∧ o.eq = 0#1 ∧ o.min.sign = 0#1 ∧ o.max.sign = 1#1 := by decide

/-! ### Witnesses: states and operands that meet the hypotheses of the statements -/

/-- A state with the given wires and lines. -/
def withLines (ws : Wires) (ls : List Line) : State :=
  { State.reset with wires := ws, pending := ls }

def wordWires (w : Word) : Wires := { Wires.empty with f := [(1, w)] }

theorem witness_UnassignedNumbersNameNoOperation :
    (0xA#8 : Byte).toNat ≤ 0xA ∧ 0xB ≤ (0xB#8 : Byte).toNat ∧ (0xF#8 : Byte).toNat ≤ 0xF ∧ 0xF < (0x10#8 : Byte).toNat ∧
    (withLines .empty [.operation 0xB#8 {} none]).pending = .operation 0xB#8 {} none :: [] := by decide

theorem witness_DecodeInvertsEncode : decode [0xA#8, 0x1#8] = .ok .max [0x1#8] := by decide

theorem witness_StepRunsTheDecodedOperation :
    let s := withLines (wordWires 0x3FF0000000000000) [.operation 0x0#8 { fIn := some (.name (.f 1) 0) } (some 1)]
    s.pending = .operation 0x0#8 { fIn := some (.name (.f 1) 0) } (some 1) :: [] ∧ decode [0x0#8] = .ok .decomp [] ∧
    s.drivenInputs { fIn := some (.name (.f 1) 0) } = .ok { s.inputs with fIn := 0x3FF0000000000000 } ∧
    decodeTableWord 8 0xA = some .max := ⟨rfl, rfl, rfl, rfl⟩

theorem witness_UnwrapAndNamingLines_present :
    let s := withLines { Wires.empty with o := [(1, some one)] } [.unwrap 2 1]
    s.pending = .unwrap 2 1 :: [] ∧ s.wires.o.lookup 1 = some (some one) ∧ s.wires.t.lookup 2 = none := by decide

theorem witness_UnwrapAndNamingLines_absent :
    let s := withLines { Wires.empty with o := [(1, none)] } [.unwrap 2 1]
    s.pending = .unwrap 2 1 :: [] ∧ s.wires.o.lookup 1 = some none := by decide

theorem witness_UnwrapAndNamingLines_word :
    let s := withLines (wordWires 7) [.nameWord 2 8, .nameWord 1 8]
    s.pending = .nameWord 2 8 :: [.nameWord 1 8] ∧ s.wires.f.lookup 2 = none := by decide

theorem witness_UnwrapAndNamingLines_twice :
    let s := withLines (wordWires 7) [.nameWord 1 8]
    s.pending = .nameWord 1 8 :: [] ∧ s.wires.f.lookup 1 = some 7 := by decide

/-- Names with a word, a present result, an absent result and a triple. -/
def someWires : Wires := { Wires.empty with f := [(1, 7)], o := [(1, some one), (2, none)], t := [(2, two)] }

theorem witness_UnwrapAndNamingLines_unassigned :
    let s := withLines someWires [.unwrap 9 3]
    s.wires.o.lookup 3 = none ∧ ∀ m ∈ s.pending, m.assigns ≠ some (.o 3) := by decide

theorem witness_UnwrapAndNamingLines_unwrap_twice :
    let s := withLines someWires [.unwrap 2 1]
    s.wires.o.lookup 1 = some (some one) ∧ s.wires.t.lookup 2 = some two := by decide

theorem witness_UnwrapAndNamingLines_unassigned_operands :
    let s := withLines someWires [.operation 0x0#8 { fIn := some (.name (.f 3) 0) } none]
    let t := withLines someWires [.operation 0x9#8 { a := .named 2, b := .named 5 } none]
    decode [0x0#8] = .ok .decomp [] ∧ decode [0x9#8] = .ok .min [] ∧
    (Line.operation 0x0#8 { fIn := some (.name (.f 3) 0) } none).waits s.wires s.pending = false ∧
    s.wires.f.lookup 3 = none ∧
    (Line.operation 0x9#8 { a := .named 2, b := .named 5 } none).waits t.wires t.pending = false ∧
    t.wires.t.lookup 5 = none := by decide

theorem witness_UnwrapAndNamingLines_operation_twice :
    let s := withLines someWires [.operation 0x9#8 {} (some 2)]
    s.drivenInputs {} = .ok s.inputs ∧ s.wires.freeFor Instr.min.format 2 = false := ⟨rfl, rfl⟩

/-- Two lines that each read the name the other assigns. -/
theorem witness_UnwrapAndNamingLines_await :
    let lines := [lineCompare 0x9#8 5 6 6, lineCompare 0xA#8 6 5 5]
    (∀ k < 2, ∀ m ∈ lines[k]?, m.mayRun .empty lines (lines.take k) = false) ∧
    step (withLines .empty lines) = .refused .linesAwaitEachOther := ⟨by decide, rfl⟩

/-- R69: UNWRAP listed before the DECOMP whose result it reads waits for it. -/
theorem test_line_waits_for_the_name_it_reads :
    let s := withLines (wordWires 0x3FF0000000000000) [.unwrap 1 1, lineDecomp 1 1]
    (stateAfter (runSteps 1 s)).map (fun t => (t.wires.o, t.pending)) = some ([(1, some one)], [.unwrap 1 1]) ∧
    (stateAfter (runSteps 2 s)).map (fun t => t.wires.t) = some [(1, one)] := by decide

/-- R169: RECOMP of d_* wired to r_*, on the word that the same line puts on f_in. -/
theorem test_direct_wiring_in_one_line :
    let s := withLines (wordWires 0xC0123D70A3D70A3D)
      [.operation 0x1#8 { fIn := some (.name (.f 1) 0), r := .dOut } (some 2)]
    (stateAfter (step s)).map State.result = some (some (.word 0xC0123D70A3D70A3D)) := by decide

/-- A chain through all three groups: f_out to f_in, d_* to a_*. -/
theorem test_direct_wiring_in_a_chain :
    let s := withLines { Wires.empty with t := [(1, two), (2, one)] }
      [.operation 0x3#8 { r := .named 1, fIn := some (.out .fOut 0), a := .dOut, b := .named 2 } none]
    (stateAfter (step s)).map (fun t => (t.result, t.inputs.fIn, t.inputs.a)) =
      some (some (.bool false), 0x4000000000000000, tripleOnPort two) := by decide

theorem witness_DrivesReachThePorts :
    let s := withLines someWires []
    s.drivenInputs {} = .ok s.inputs ∧ s.drivenInputs { fIn := some (.lit 9) } = .ok { s.inputs with fIn := 9 } ∧
    s.drivenInputs { fIn := some (.name (.f 1) 0), r := .named 2, a := .named 2, b := .named 2 } =
      .ok { fIn := 7, r := tripleOnPort two, a := tripleOnPort two, b := tripleOnPort two } ∧
    s.wires.f.lookup 1 = some 7 ∧ s.wires.t.lookup 2 = some two := ⟨rfl, rfl, rfl, rfl, rfl⟩

theorem witness_DrivesReachThePorts_wired :
    let s := withInputs 0x3FF0000000000000 one two one
    s.drivenInputs { fIn := some (.out .fOut 0), a := .dOut } = .ok { s.inputs with a := tripleOnPort one } ∧
    s.drivenInputs { r := .minOut } = .ok s.inputs ∧
    s.drivenInputs { r := .maxOut } = .ok { s.inputs with r := tripleOnPort two } ∧
    s.hasSources { r := .maxOut } = true ∧ isFinite s.inputs.fIn = true := ⟨rfl, rfl, rfl, rfl, rfl⟩

/-- A loop that is not stable runs: its line reads MAX on the free value of a_*, and the step has a next state. -/
theorem test_unstable_loop_runs :
    let s := { withInputs 0 one two one with pending := [.operation 0xA#8 { a := .minOut } none] }
    (stateAfter (step s)).map (fun t => (t.inputs.b, t.pending)) = some (tripleOnPort one, []) := by decide

/-- Loops close at f_in, at r_mant, at a_*, and at the sign of b_*. -/
theorem witness_DrivesReachThePorts_loops_of_each_kind :
    let s := withInputs 0 one two one
    let d : Drives :=
      { fIn := some (.out .fOut 0), r := { TripleDrive.dOut with mant := some (.out .fOut 0) }, a := .minOut
        b := { sign := some (.out .lt 0) } }
    d.closes .fIn = true ∧ d.closes .rMant = true ∧ d.closes .rSign = false ∧ d.closes .aExp = true ∧
    d.closes .bSign = true ∧ s.placedInputs d = .ok s.inputs ∧ s.hasSources d = true :=
  ⟨rfl, rfl, rfl, rfl, rfl, rfl, rfl⟩

/-- R169: single buses wired, gt to r_sign and d_mant to r_mant, beside a literal exponent. -/
theorem test_wiring_of_single_buses :
    let s := withLines Wires.empty
      [.operation 0x1#8
        { fIn := some (.lit 0xBFF0000000000001)
          r := { sign := some (.out .gt 0), exp := some (.lit 1023), mant := some (.out .dMant 0) }
          a := .lit (tripleOnPort one), b := .lit (tripleOnPort two) } none]
    (stateAfter (step s)).map State.result = some (some (.word 0xBFF0000000000001)) := by decide

/-- d_valid on a_sign, and the upper wire of ord on r_sign. -/
theorem test_wiring_of_flags_to_signs :
    let s := withLines Wires.empty
      [.operation 0x1#8
        { fIn := some (.lit 0x7FF0000000000000), r := { TripleDrive.lit (tripleOnPort two) with sign := some (.out .ord 1) }
          a := { TripleDrive.lit (tripleOnPort one) with sign := some (.out .dValid 0) }
          b := .lit (tripleOnPort one) } none]
    (stateAfter (step s)).map (fun t => (t.result, t.inputs.a.sign)) =
      some (some (.word 0x4000000000000000), 0#1) := by decide

/-- R64: the Boolean `p1` and the code of the order `c1` on sign buses, the word `f1` on a mantissa bus. -/
theorem test_names_on_single_buses :
    let ws : Wires := { Wires.empty with p := [(1, false)], c := [(1, .greater)], f := [(1, 0x0010000000000000)] }
    let s := withLines ws
      [.operation 0x3#8
        { a := { sign := some (.name (.p 1) 0), exp := some (.lit 1023), mant := some (.name (.f 1) 0) }
          b := { sign := some (.name (.c 1) 0), exp := some (.lit 1023), mant := some (.name (.f 1) 0) } } none]
    (stateAfter (step s)).map (fun t => (t.result, t.inputs.a, t.inputs.b)) =
      some (some (.bool true), tripleOnPort minusOne, tripleOnPort one) := by decide

/-- Wirings that close no loop, one that does (d_mant to f_in, R172), and name parts that are not assigned. -/
theorem witness_DrivesReachThePorts_buses :
    ([{ fIn := some (.out .fOut 0) }, { fIn := some (.out .minMant 0) }, { r := .minOut }, { fIn := some (.out .dMant 0) }, { r := .maxOut },
      { r := { sign := some (.out .lt 0) } }, { r := { sign := some (.out .ne 0) } }, { r := { sign := some (.out .ord 1) } },
      { a := { sign := some (.out .dValid 0) } }, { a := { mant := some (.out .fOut 0) } },
      { b := { exp := some (.out .dExp 0) } }] : List Drives).map Drives.loops =
      [false, false, false, true, false, false, false, false, false, false, false] ∧
    (withLines someWires []).wires.has (NamePart.p 1).name = false ∧
    (withLines someWires []).wires.bits (.tMant 2) = some 0x0010000000000000 := by decide

/-- A composite that reads no held value: f_out to f_in, d_* to a_*, with r_* and b_* from names. -/
theorem witness_OperationsDoNotAffectEachOther_wired :
    let d : Drives := { r := .named 2, fIn := some (.out .fOut 0), a := .dOut, b := .named 2 }
    let s := withLines someWires []
    (Line.operation 0x2#8 d none).readsPorts = false ∧ (∀ nm ∈ d.names, s.wires.has nm = true) ∧
    s.drivenInputs d =
      .ok { fIn := 0x4000000000000000, r := tripleOnPort two, a := tripleOnPort two, b := tripleOnPort two } :=
  ⟨rfl, by decide, rfl⟩

theorem witness_DrivesReachThePorts_loops :
    (withInputs 0 one one two).outputs.min = (withInputs 0 one one two).inputs.a ∧
    (withInputs 0 one two one).outputs.min ≠ (withInputs 0 one two one).inputs.a := by decide

theorem witness_ResultsFitTheirFormats : exec .min State.reset = .next (State.reset.report (.triple negZero)) := rfl

theorem witness_constructed_words :
    decompose 0x000FFFFFFFFFFFFF = some ⟨0x001FFFFFFFFFFFFE, 0, true⟩ ∧ (efield 0x000FFFFFFFFFFFFF).toNat = 0 ∧
    decompose 0xFFEFFFFFFFFFFFFF = some ⟨0x001FFFFFFFFFFFFF, 2046, false⟩ ∧ (efield 0xFFEFFFFFFFFFFFFF).toNat ≠ 0 := by
  decide

theorem witness_DecompPortEquations : (withInputs 0x7FEFFFFFFFFFFFFF one one one).outputs.dValid = 1#1 := by decide

theorem witness_MinAndMax_equal_operands : compareDF one one = .equal := by decide

theorem witness_RecompPortEquations_negative : (⟨6, 0xFFFF, true⟩ : DF).exponent.toInt < 0 := by decide
theorem witness_RecompPortEquations_2047 : (⟨0x0010000000000000, 2047, true⟩ : DF).exponent.toInt = 2047 := by decide
theorem witness_RecompPortEquations_2048 : 2048 ≤ (⟨0, 0x0800, true⟩ : DF).exponent.toInt := by decide
theorem witness_RecompPortEquations_ignored_bits :
    0 < one.exponent.toInt ∧ (0xFFF0000000000000 : BitVec 64).extractLsb 51 0 = one.mantissa.extractLsb 51 0 ∧
    posZero.exponent.toInt ≤ 0 ∧ (1 : BitVec 64).extractLsb 52 1 = posZero.mantissa.extractLsb 52 1 := by decide
theorem witness_RecompPortEquations_injective :
    one.wf = true ∧ one.wf = true ∧ recompose one = recompose one := by decide

theorem witness_RecompOnWellFormedInput :
    posZero.wf = true ∧ posZero.exponent = 0#16 ∧ one.wf = true ∧ one.exponent ≠ 0#16 := by decide

theorem witness_RecompOfConstructedTripleIsFinite : (withInputs 0 one two minusOne).constructed = true := by decide

theorem witness_RoundTripFromTriple_rejected :
    (⟨0x0010000000000000, 2047, true⟩ : DF).wf = false ∧
    (efield (recompose ⟨0x0010000000000000, 2047, true⟩)).toNat = 2047 := by decide

theorem witness_RoundTripFromTriple_other :
    (⟨3, 0, true⟩ : DF).wf = false ∧ decompose (recompose ⟨3, 0, true⟩) = some ⟨2, 0, true⟩ := by decide

theorem witness_DecompIsABijection : isFinite 0x8000000000000000 = true ∧ negZero.wf = true := by decide

theorem witness_FieldComparisonsAreIntegerComparisons : negZero.sign ≠ posZero.sign := by decide

theorem witness_CmpIsRealNumberOrder_and_CmpIsKeyOrder :
    negZero.wf = true ∧ posZero.wf = true ∧ decompose 0x8000000000000000 = some negZero ∧
    decompose 0 = some posZero := by decide

theorem witness_CmpIsTransitive :
    compareDF minusOne negZero ≠ .greater ∧ compareDF negZero posZero ≠ .greater ∧
    compareDF negZero posZero = .less := by decide

theorem witness_LeAndLtAreTotalOrders :
    lessOrEqual one one = true ∧ lessThan minusOne one = true ∧ lessThan one two = true ∧ one ≠ two := by decide

theorem witness_CmpCornerCases :
    minusOne.wf = true ∧ minusOne.sign = false ∧ minusOne ≠ negZero ∧ one.wf = true ∧ one.sign = true ∧ one ≠ posZero ∧
    two.sign = true ∧ one.exponent.toInt < two.exponent.toInt := by decide

theorem witness_CmpCornerCases_negative :
    negZero.sign = false ∧ minusOne.sign = false ∧ negZero.exponent.toInt < minusOne.exponent.toInt ∧
    (⟨0x0010000000000001, 1023, false⟩ : DF).exponent = minusOne.exponent ∧
    minusOne.mantissa.toNat < (⟨0x0010000000000001, 1023, false⟩ : DF).mantissa.toNat := by decide

theorem witness_ValueOfTripleIsValueOfWord :
    posZero.wf = true ∧ posZero.exponent.toInt = 0 ∧ one.wf = true ∧ 0 ≤ one.exponent.toInt := by decide

theorem witness_RelationsAgreeWithNativeComparison :
    decompose 0x8000000000000000 = some negZero ∧ decompose 0 = some posZero ∧ decompose 0x3FF0000000000000 = some one ∧
    (valWord 0x8000000000000000).isSome = true ∧ (valWord 0).isSome = true ∧
    (valWord 0x3FF0000000000000).isSome = true ∧ ¬(one = negZero ∧ posZero = posZero) ∧
    ¬(one = posZero ∧ posZero = negZero) := by decide

theorem witness_PackedTripleLayout : one.wf = true ∧ two.wf = true ∧ one.sign = true ∧ two.sign = true := by decide

theorem witness_SortedPermutationIsUnique :
    isSorted [minusOne, negZero, posZero, one] = true ∧ [one, two][0]? = some one ∧ [one, two][0 + 1]? = some two ∧
    [minusOne, one].Perm [one, minusOne] := by decide

theorem witness_CmpfHasNoResultOnRejectedWords :
    decompose 0x7FF8000000000000 = none ∧ decompose 0x3FF0000000000000 = some one ∧
    isFinite 0x3FF0000000000000 = true := by decide

theorem witness_CmpfLines :
    let ws : Wires := { Wires.empty with f := [(1, 0x3FF0000000000000), (2, 0x7FF8000000000000)] }
    let s := withLines ws (linesCompareWords 1 1 2 1 2 1 2)
    s.pending = linesCompareWords 1 1 2 1 2 1 2 ++ [] ∧ s.wires.f.lookup 1 = some 0x3FF0000000000000 ∧
    s.wires.f.lookup 2 = some 0x7FF8000000000000 ∧ s.wires.o.lookup 1 = none ∧ s.wires.o.lookup 2 = none ∧
    s.wires.t.lookup 1 = none ∧ s.wires.t.lookup 2 = none ∧ s.wires.c.lookup 1 = none ∧
    isFinite 0x3FF0000000000000 = true ∧ isFinite 0x7FF8000000000000 = false := by decide

theorem witness_RoundtripLines_wired :
    let s := withLines (wordWires 0x3FF0000000000000)
      [.operation 0x1#8 { fIn := some (.name (.f 1) 0), r := .dOut } (some 2)]
    s.wires.f.lookup 1 = some 0x3FF0000000000000 ∧ isFinite 0x3FF0000000000000 = true ∧
    s.wires.f.lookup 2 = none := by decide

theorem witness_RoundtripLines_finite :
    let s := withLines (wordWires 0x3FF3AE147AE147AE) (linesRoundtrip 2 1 1 1)
    s.pending = linesRoundtrip 2 1 1 1 ++ [] ∧ s.wires.f.lookup 1 = some 0x3FF3AE147AE147AE ∧
    isFinite 0x3FF3AE147AE147AE = true ∧ s.wires.f.lookup 2 = none ∧ s.wires.o.lookup 1 = none ∧
    s.wires.t.lookup 1 = none := by decide

theorem witness_RoundtripLines_rejected :
    let s := withLines (wordWires 0x7FF8000000000000) (linesRoundtrip 2 1 1 1)
    s.pending = linesRoundtrip 2 1 1 1 ++ [] ∧ s.wires.f.lookup 1 = some 0x7FF8000000000000 ∧
    isFinite 0x7FF8000000000000 = false ∧ s.wires.o.lookup 1 = none := by decide

theorem witness_CswapLinesOrderTwoTriples :
    let s := withLines { Wires.empty with t := [(1, two), (2, one)] } (linesCswap 3 4 1 2)
    s.pending = linesCswap 3 4 1 2 ++ [] ∧ s.wires.t.lookup 1 = some two ∧ s.wires.t.lookup 2 = some one ∧
    s.wires.t.lookup 3 = none ∧ s.wires.t.lookup 4 = none ∧ (3 : Nat) ≠ 4 := by decide

theorem witness_PortGroupsAreIndependent :
    let s := withInputs 0x3FF0000000000000 one two two
    let t := withInputs 0x3FF0000000000000 two one two
    let u := withInputs 0 two one two
    s.inputs.fIn = t.inputs.fIn ∧ s.outputs.dValid = 1#1 ∧ s.draws = t.draws ∧ t.inputs.r = u.inputs.r ∧
    t.inputs.a = u.inputs.a ∧ t.inputs.b = u.inputs.b := by decide

theorem witness_OperationsDoNotAffectEachOther :
    exec .decomp State.reset = .next (State.reset.report (.optTriple (some posZero))) := rfl

theorem witness_OperationsDoNotAffectEachOther_lines :
    let l₁ := lineDecomp 1 1
    let l₂ := Line.unwrap 1 1
    let l₃ := lineCompare 0x9#8 3 2 2
    let s := withLines { someWires with o := [] } []
    l₁.inNotation = true ∧ l₂.inNotation = true ∧ l₃.inNotation = true ∧ (∀ nm ∈ l₁.reads, s.wires.has nm = true) ∧
    (∀ nm ∈ l₂.reads, s.wires.has nm = true ∨ l₁.assigns = some nm) ∧ (∀ nm ∈ l₃.reads, s.wires.has nm = true) ∧
    (stateAfter (runSteps 2 { s with pending := [l₁, l₂] })).isSome = true ∧
    (stateAfter (runSteps 2 { s with pending := [l₁, l₃] })).isSome = true := by decide

/-- The line stands behind one that waits for it. -/
theorem witness_PresentedOperationCompletes :
    let d : Drives := { a := .named 1, b := .lit (tripleOnPort two) }
    let s := withLines { Wires.empty with t := [(1, one)] } [lineRecomp 1 2, .operation 0x9#8 d (some 2)]
    s.pending = [lineRecomp 1 2] ++ .operation 0x9#8 d (some 2) :: [] ∧
    (lineRecomp 1 2).mayRun s.wires s.pending [] = false ∧
    (Line.operation 0x9#8 d (some 2)).mayRun s.wires s.pending [lineRecomp 1 2] = true ∧
    decode [0x9#8] = .ok .min [] ∧ s.hasSources d = true ∧ s.wires.freeFor Instr.min.format 2 = true := by decide

theorem witness_StepsKeep_run :
    (withInputs 0x3FF0000000000000 one two minusOne |>.withFetchWord 8 0x9).constructed = true ∧
    (withInputs 0x3FF0000000000000 one two minusOne |>.withFetchWord 8 0x9).wires.assignedOnce ∧
    (stateAfter (step (withInputs 0x3FF0000000000000 one two minusOne |>.withFetchWord 8 0x9))).isSome = true :=
  ⟨by decide, by simp [Wires.assignedOnce, withInputs, State.reset, Wires.empty], by decide⟩

theorem witness_StepsAssignEachNameOnce_named :
    let s := withLines { f := [(1, 7)], o := [(1, none)], t := [(1, one)], c := [(1, .less)], p := [(1, true)] }
      [.nameWord 2 8]
    s.wires.f.lookup 1 = some 7 ∧ s.wires.o.lookup 1 = some none ∧ s.wires.t.lookup 1 = some one ∧
    s.wires.c.lookup 1 = some .less ∧ s.wires.p.lookup 1 = some true ∧ (stateAfter (step s)).isSome = true := by decide

theorem witness_SettingsAgreeOnWellFormedTriples :
    (withInputs 0 one two minusOne).operandR.wf = true ∧ (withInputs 0 one two minusOne).operandA.wf = true ∧
    (withInputs 0 one two minusOne).operandB.wf = true := by decide

end Sys2Proof.Tests
end

section
/-! The field comparisons of R14, and step 1 of CMP (R101) as a comparison of the signs. -/

namespace Sys2Proof.Machine

@[simp] theorem cmpB_self (a : Bool) : cmpB a a = .equal := if_pos rfl

theorem cmpB_of_ne {a b : Bool} (h : a ≠ b) : cmpB a b = if a = false then .less else .greater := if_neg h

/-- When the signs differ, CMP is decided by the signs alone (step 1 of R101). -/
theorem compareDF_of_sign_ne {a b : DF} (h : a.sign ≠ b.sign) : compareDF a b = cmpB a.sign b.sign :=
  calc compareDF a b = if a.sign = false then .less else .greater := if_pos h
    _ = cmpB a.sign b.sign := (cmpB_of_ne h).symm

theorem cmpS_equal_iff_toInt (a b : BitVec 16) : cmpS a b = .equal ↔ a.toInt = b.toInt :=
  (cmpS_equal_iff a b).trans BitVec.toInt_inj.symm

theorem cmpU_equal_iff_toNat (a b : BitVec 64) : cmpU a b = .equal ↔ a.toNat = b.toNat :=
  (cmpU_equal_iff a b).trans BitVec.toNat_inj.symm

/-- Settles O20, from the integer reading of each field comparison and step 1 of CMP. -/
theorem fieldComparisonsAreIntegerComparisons : Obligations.FieldComparisonsAreIntegerComparisons := by
  refine ⟨fun a b => ⟨cmpS_less_iff a b, cmpS_equal_iff_toInt a b, cmpS_greater_iff a b⟩,
    fun a b => ⟨cmpU_less_iff a b, cmpU_equal_iff_toNat a b, cmpU_greater_iff a b⟩,
    cmpB_of_ne Bool.false_ne_true, cmpB_of_ne Bool.false_ne_true.symm, cmpB_self,
    fun a b => compareDF_of_sign_ne, fun o => ?_⟩
  cases o <;> rfl

end Sys2Proof.Machine
end

section
/-! The fields of a constructed triple as integers (R28, R29): mantissa and exponent as natural numbers, and that a bit
field at the top of a word is 0 when the word is small. -/

namespace Sys2Proof.Machine

/-- The field from bit `lo` up to the top bit is 0 exactly when the vector is below `2 ^ lo`. -/
theorem extractLsb_top_eq_zero_iff {hi lo : ℕ} (x : BitVec (hi + 1)) :
    x.extractLsb hi lo = 0#(hi - lo + 1) ↔ x.toNat < 2 ^ lo := by
  have hx : x.toNat / 2 ^ lo < 2 ^ (hi - lo + 1) := by
    refine Nat.div_lt_of_lt_mul (x.isLt.trans_le ?_)
    rw [← Nat.pow_add]
    exact Nat.pow_le_pow_right two_pos (by omega)
  rw [← BitVec.toNat_inj, BitVec.extractLsb_toNat, Nat.shiftRight_eq_div_pow, Nat.mod_eq_of_lt hx,
    BitVec.toNat_ofNat, Nat.zero_mod, Nat.div_eq_zero_iff_lt (Nat.two_pow_pos lo)]

/-! ### The mantissa (R28) -/

theorem subnormalMantissa_toNat (f : BitVec 52) : (f.setWidth 64 <<< 1).toNat = 2 * f.toNat := by
  have hf := f.isLt
  rw [BitVec.toNat_shiftLeft, BitVec.toNat_setWidth, Nat.shiftLeft_eq]
  omega

/-- The implicit one stands above the fraction, so setting it adds it. -/
theorem normalMantissa_toNat (f : BitVec 52) : (f.setWidth 64 ||| bit52).toNat = 2 ^ 52 + f.toNat :=
  calc (f.setWidth 64 ||| bit52).toNat
    _ = bit52.toNat ||| f.toNat := by
      rw [BitVec.toNat_or, BitVec.toNat_setWidth_of_le (by decide), Nat.or_comm]
    _ = 2 ^ 52 * 1 + f.toNat := (Nat.two_pow_add_eq_or_of_lt f.isLt 1).symm
    _ = 2 ^ 52 + f.toNat := by rw [Nat.mul_one]

theorem decompose_mantissa_toNat_of_efield_eq_zero {w : Word} {d : DF} (h : decompose w = some d)
    (h₀ : (efield w).toNat = 0) : d.mantissa.toNat = 2 * (frac w).toNat := by
  obtain ⟨-, -, -, hm⟩ := (decompose_eq_some_iff w d).1 h
  rw [hm, if_pos ((efield_eq_zero_iff _).1 h₀), subnormalMantissa_toNat]

theorem decompose_mantissa_toNat_of_efield_ne_zero {w : Word} {d : DF} (h : decompose w = some d)
    (h₀ : (efield w).toNat ≠ 0) : d.mantissa.toNat = 2 ^ 52 + (frac w).toNat := by
  obtain ⟨-, -, -, hm⟩ := (decompose_eq_some_iff w d).1 h
  rw [hm, if_neg (mt (efield_eq_zero_iff _).2 h₀), normalMantissa_toNat]

theorem decompose_mantissa_toNat_lt {w : Word} {d : DF} (h : decompose w = some d) : d.mantissa.toNat < 2 ^ 53 := by
  have hf := (frac w).isLt
  by_cases h₀ : (efield w).toNat = 0
  · have hm := decompose_mantissa_toNat_of_efield_eq_zero h h₀
    omega
  · have hm := decompose_mantissa_toNat_of_efield_ne_zero h h₀
    omega

/-- Settles O21, from the mantissa as a natural number in each of the two cases of R81. -/
theorem mantissaOfConstructedTriple : Obligations.MantissaOfConstructedTriple := by
  intro w d h
  have hf := (frac w).isLt
  have hlt := decompose_mantissa_toNat_lt h
  refine ⟨fun h₀ => ?normal, fun h₀ => ?subnormal, (extractLsb_top_eq_zero_iff _).2 hlt⟩
  case normal =>
    have hm := decompose_mantissa_toNat_of_efield_ne_zero h h₀
    exact ⟨hm, by omega, hlt⟩
  case subnormal =>
    have hm := decompose_mantissa_toNat_of_efield_eq_zero h h₀
    exact ⟨hm, by omega, by omega⟩

/-! ### The exponent (R29) -/

theorem decompose_exponent {w : Word} {d : DF} (h : decompose w = some d) : d.exponent = (efield w).setWidth 16 := by
  obtain ⟨-, -, he, -⟩ := (decompose_eq_some_iff w d).1 h
  exact he

/-- Field 2047 is rejected (R82), so 2046 is the largest that is left. -/
theorem decompose_efield_toNat_le {w : Word} {d : DF} (h : decompose w = some d) : (efield w).toNat ≤ 2046 := by
  obtain ⟨hne, -⟩ := (decompose_eq_some_iff w d).1 h
  have htop := mt (efield_eq_top_iff _).1 hne
  have hlt := (efield w).isLt
  omega

theorem decompose_exponent_toNat {w : Word} {d : DF} (h : decompose w = some d) :
    d.exponent.toNat = (efield w).toNat := by
  rw [decompose_exponent h, BitVec.toNat_setWidth_of_le (by decide)]

/-- Read as signed the exponent is still the raw field: its sign bit is never set. -/
theorem decompose_exponent_toInt {w : Word} {d : DF} (h : decompose w = some d) :
    d.exponent.toInt = (efield w).toNat := by
  have he := decompose_exponent_toNat h
  have hle := decompose_efield_toNat_le h
  rw [BitVec.toInt_eq_toNat_of_lt (by omega), he]

/-- Settles O22, from the exponent as a natural number and the rejection of field 2047. -/
theorem exponentOfConstructedTriple : Obligations.ExponentOfConstructedTriple := by
  intro w d h
  have he := decompose_exponent_toNat h
  have hi := decompose_exponent_toInt h
  have hle := decompose_efield_toNat_le h
  refine ⟨decompose_exponent h, hi, by omega, by omega, (extractLsb_top_eq_zero_iff _).2 (by omega), ?_⟩
  rw [← exponent_eq_zero_iff]
  omega

end Sys2Proof.Machine
end

section
/-! The codes of results and triples (R61, R63): which codes `ord` carries, and the fields of the packed word `DF81`, as
bits and as one natural number. -/

namespace Sys2Proof.Machine

/-! ### The code of `ord` (R63) -/

@[simp] theorem ordOfCode_ordCode (o : Ord3) : ordOfCode (ordCode o) = some o := by
  cases o <;> rfl

@[simp] theorem ordOfCode_two_eq_none : ordOfCode 0b10#2 = none := rfl

/-- No order has the code `0b10`: it would have to be read back from a code that stands for none. -/
theorem ordCode_ne_two (o : Ord3) : ordCode o ≠ 0b10#2 := by
  intro h
  have hread := ordOfCode_ordCode o
  rw [h, ordOfCode_two_eq_none] at hread
  cases hread

/-- Settles O34, from the reading back of a code: what `ord` carries is always the code of an order. -/
theorem ordCodeIsThreeWay : Obligations.OrdCodeIsThreeWay :=
  ⟨⟨rfl, rfl⟩, ⟨rfl, rfl⟩, ⟨rfl, rfl⟩,
    fun _ => ordCode_ne_two _, ordOfCode_ordCode, ordOfCode_two_eq_none⟩

/-! ### The fields of the packed word (R61) -/

@[simp] theorem packDF_mantissa (d : DF) : (packDF d).extractLsb 63 0 = d.mantissa :=
  BitVec.extractLsb'_append_eq_right

@[simp] theorem packDF_exponent (d : DF) : (packDF d).extractLsb 79 64 = d.exponent :=
  calc (packDF d).extractLsb 79 64
    _ = (boolBit d.sign ++ d.exponent).extractLsb' 0 16 := BitVec.extractLsb'_append_eq_of_le (by decide)
    _ = d.exponent := BitVec.extractLsb'_append_eq_right

@[simp] theorem packDF_sign (d : DF) : (packDF d).extractLsb 80 80 = boolBit d.sign :=
  calc (packDF d).extractLsb 80 80
    _ = (boolBit d.sign ++ d.exponent).extractLsb' 16 1 := BitVec.extractLsb'_append_eq_of_le (by decide)
    _ = boolBit d.sign := BitVec.extractLsb'_append_eq_left

@[simp] theorem unpackDF_packDF (d : DF) : unpackDF (packDF d) = d := by
  simp only [unpackDF, packDF_mantissa, packDF_exponent, packDF_sign, bitBool_boolBit]

/-- The three fields stand side by side and cover the word. -/
@[simp] theorem packDF_unpackDF (x : BitVec 81) : packDF (unpackDF x) = x :=
  calc packDF (unpackDF x)
    _ = x.extractLsb' 80 1 ++ x.extractLsb' 64 16 ++ x.extractLsb' 0 64 := by
      simp only [packDF, unpackDF, boolBit_bitBool]; rfl
    _ = x.extractLsb' 64 17 ++ x.extractLsb' 0 64 :=
      congrArg (· ++ x.extractLsb' 0 64) (BitVec.extractLsb'_append_extractLsb'_eq_extractLsb' rfl)
    _ = x.extractLsb' 0 81 := BitVec.extractLsb'_append_extractLsb'_eq_extractLsb' rfl
    _ = x := BitVec.extractLsb'_eq_self

/-! ### The order of packed words (R61) -/

/-- An append is a sum: the low part stays below the place of the high part. -/
theorem append_toNat {m n : ℕ} (x : BitVec m) (y : BitVec n) : (x ++ y).toNat = 2 ^ n * x.toNat + y.toNat := by
  rw [BitVec.toNat_append, Nat.shiftLeft_eq, Nat.mul_comm, Nat.two_pow_add_eq_or_of_lt y.isLt]

theorem packDF_toNat (d : DF) :
    (packDF d).toNat = 2 ^ 64 * (2 ^ 16 * (boolBit d.sign).toNat + d.exponent.toNat) + d.mantissa.toNat := by
  rw [← append_toNat, ← append_toNat]
  rfl

/-- On a non-negative well-formed triple the packed word is the key of the order of CMP, up to a constant: the exponent
field read as unsigned is the exponent, since its sign bit is not set. -/
theorem packDF_toNat_eq_orderKey_add {d : DF} (hwf : d.wf = true) (hs : d.sign = true) :
    ((packDF d).toNat : ℤ) = orderKey d + 2 ^ 79 := by
  obtain ⟨hle, -⟩ := (wf_iff d).1 hwf
  have he : d.exponent.toInt = d.exponent.toNat := BitVec.toInt_eq_toNat_of_lt (by omega)
  have hp : (packDF d).toNat = 2 ^ 64 * (2 ^ 16 * 1 + d.exponent.toNat) + d.mantissa.toNat := by
    rw [packDF_toNat, hs]; rfl
  have hk : orderKey d = (d.exponent.toInt + 2 ^ 15) * 2 ^ 64 + d.mantissa.toNat := if_pos hs
  omega

/-- For non-negative well-formed triples CMP is the unsigned comparison of the packed words. -/
theorem compareDF_less_iff_packDF {a b : DF} (ha : a.wf = true) (hb : b.wf = true) (sa : a.sign = true)
    (sb : b.sign = true) : compareDF a b = .less ↔ (packDF a).toNat < (packDF b).toNat := by
  have hka := packDF_toNat_eq_orderKey_add ha sa
  have hkb := packDF_toNat_eq_orderKey_add hb sb
  rw [compareDF_less_iff]
  omega

theorem compareDF_greater_iff_less (a b : DF) : compareDF a b = .greater ↔ compareDF b a = .less :=
  (compareDF_greater_iff a b).trans (compareDF_less_iff b a).symm

/-- Settles O44, from the fields of the packed word and its value as the order key plus a constant. -/
theorem packedTripleLayout : Obligations.PackedTripleLayout :=
  ⟨fun d => ⟨packDF_sign d, packDF_exponent d, packDF_mantissa d⟩, unpackDF_packDF, packDF_unpackDF,
    fun a b ha hb sa sb => ⟨compareDF_less_iff_packDF ha hb sa sb,
      (compareDF_greater_iff_less a b).trans (compareDF_less_iff_packDF hb ha sb sa)⟩⟩

end Sys2Proof.Machine
end

section
/-! DECOMP as an operation (R80, R81): what it reports, and that reporting a result changes nothing else. -/

namespace Sys2Proof.Machine

/-- Reporting changes the result read and the counter (log 5, log 14), and nothing else. -/
theorem State.report_eq (s : State) (r : Result) :
    s.report r = { s with result := some r, draws := s.draws + 1 } := rfl

theorem exec_decomp (s : State) : exec .decomp s = .next (s.report (.optTriple (decompose s.inputs.fIn))) := rfl

/-- R81 in the bits of the word: rejection by the top exponent field (R82), else construction field by field. -/
theorem decompose_eq_ite (w : Word) : decompose w =
    if (w.extractLsb 62 52).toNat = 2047 then none
    else some
      { sign := decide (w.extractLsb 63 63 = 0#1)
        exponent := (w.extractLsb 62 52).setWidth 16
        mantissa :=
          if (w.extractLsb 62 52).toNat = 0 then (w.extractLsb 51 0).setWidth 64 <<< 1
          else (w.extractLsb 51 0).setWidth 64 ||| 0x0010000000000000#64 } := by
  split
  case isTrue htop => exact (decompose_eq_none_iff w).2 ((efield_eq_top_iff _).1 htop)
  case isFalse htop =>
    refine (decompose_eq_some_iff w _).2 ⟨mt (efield_eq_top_iff _).2 htop, rfl, rfl, ?_⟩
    simp only [← efield_eq_zero_iff]
    rfl

/-- Settles O8, from what DECOMP reports, what reporting leaves unchanged, and R81 in the bits of `f_in`. -/
theorem decompSplitsItsWord : Obligations.DecompSplitsItsWord := by
  intro s
  rw [exec_decomp, State.report_eq, decompose_eq_ite]

end Sys2Proof.Machine
end

section
/-! RECOMP as an operation (R90, R91): what it reports, and R91 as one OR of the three parts of the word. -/

namespace Sys2Proof.Machine

theorem exec_recomp (s : State) : exec .recomp s = .next (s.report (.word (recompose s.operandR))) := rfl

/-- R91 as the OR of the sign bit, the exponent bits and the mantissa bits. -/
theorem recompose_eq_or (d : DF) : recompose d =
    (if d.sign then 0#64 else bit63) |||
    (if d.exponent.toInt ≤ 0 then 0#64 else d.exponent.setWidth 64 <<< 52) |||
    (if d.exponent.toInt ≤ 0 then (d.mantissa >>> 1) &&& mask52 else d.mantissa &&& mask52) := by
  unfold recompose
  by_cases h : d.exponent.toInt ≤ 0
  case pos => simp only [if_pos h]
  case neg => simp only [if_neg h]

/-- Settles O9, from what RECOMP reports, what reporting leaves unchanged, and R91 as one OR. -/
theorem recompRebuildsAWord : Obligations.RecompRebuildsAWord := by
  intro s
  rw [exec_recomp, State.report_eq, recompose_eq_or, bit63, mask52]

end Sys2Proof.Machine
end

section
/-! The word RECOMP gives, field by field (R94): sign bit, exponent field and fraction, for every triple; and what the
fields show of the triple it was given. -/

namespace Sys2Proof.Machine

/-- The three fields stand side by side and cover the word (R55). -/
theorem append_fields (w : Word) : (sbit w ++ efield w ++ frac w : BitVec 64) = w :=
  calc (sbit w ++ efield w ++ frac w : BitVec 64)
    _ = w.extractLsb' 52 12 ++ w.extractLsb' 0 52 :=
      congrArg (· ++ w.extractLsb' 0 52) (BitVec.extractLsb'_append_extractLsb'_eq_extractLsb' rfl)
    _ = w.extractLsb' 0 64 := BitVec.extractLsb'_append_extractLsb'_eq_extractLsb' rfl
    _ = w := BitVec.extractLsb'_eq_self

/-- The fields of a word lose nothing. -/
theorem word_ext {v w : Word} (hs : sbit v = sbit w) (he : efield v = efield w) (hf : frac v = frac w) : v = w := by
  rw [← append_fields v, ← append_fields w, hs, he, hf]

/-! ### The bits of a field -/

theorem boolBit_getLsbD_zero (p : Bool) : (boolBit p).getLsbD 0 = p := by
  cases p <;> rfl

theorem sbit_getLsbD_zero (w : Word) : (sbit w).getLsbD 0 = w.getLsbD 63 := by
  rw [sbit, BitVec.getLsbD_extractLsb]; rfl

theorem efield_getLsbD (w : Word) {i : ℕ} (hi : i < 11) : (efield w).getLsbD i = w.getLsbD (52 + i) := by
  simp [efield, Nat.le_of_lt_succ hi]

theorem frac_getLsbD (w : Word) {i : ℕ} (hi : i < 52) : (frac w).getLsbD i = w.getLsbD i := by
  simp [frac, hi]

theorem bit_eq_of_getLsbD_zero {a b : BitVec 1} (h : a.getLsbD 0 = b.getLsbD 0) : a = b := by
  refine BitVec.eq_of_getLsbD_eq fun i hi => ?_
  rwa [Nat.lt_one_iff.1 hi]

/-! ### The fields of the word given -/

theorem sbit_recompose_of_le {d : DF} (h : d.exponent.toInt ≤ 0) : sbit (recompose d) = ~~~boolBit d.sign := by
  apply bit_eq_of_getLsbD_zero
  rw [sbit_getLsbD_zero, recompose_getLsbD_of_le d h, BitVec.getLsbD_not, boolBit_getLsbD_zero]
  simp

theorem efield_recompose_of_le {d : DF} (h : d.exponent.toInt ≤ 0) : efield (recompose d) = 0#11 := by
  refine BitVec.eq_of_getLsbD_eq fun i hi => ?_
  rw [efield_getLsbD _ hi, recompose_getLsbD_of_le d h]
  simp [show 52 + i ≠ 63 by omega]

theorem frac_recompose_of_le {d : DF} (h : d.exponent.toInt ≤ 0) :
    frac (recompose d) = d.mantissa.extractLsb 52 1 := by
  refine BitVec.eq_of_getLsbD_eq fun i hi => ?_
  rw [frac_getLsbD _ hi, recompose_getLsbD_of_le d h]
  simp [show i ≠ 63 by omega, hi, Nat.add_comm]

theorem sbit_recompose_of_pos {d : DF} (h : 0 < d.exponent.toInt) :
    sbit (recompose d) = ~~~boolBit d.sign ||| d.exponent.extractLsb 11 11 := by
  apply bit_eq_of_getLsbD_zero
  rw [sbit_getLsbD_zero, recompose_getLsbD_of_pos d h, BitVec.getLsbD_or, BitVec.getLsbD_not, boolBit_getLsbD_zero]
  simp

theorem efield_recompose_of_pos {d : DF} (h : 0 < d.exponent.toInt) :
    efield (recompose d) = d.exponent.extractLsb 10 0 := by
  refine BitVec.eq_of_getLsbD_eq fun i hi => ?_
  rw [efield_getLsbD _ hi, recompose_getLsbD_of_pos d h]
  simp [show 52 + i ≠ 63 by omega, show 52 + i < 64 by omega, show i ≤ 10 by omega]

theorem frac_recompose_of_pos {d : DF} (h : 0 < d.exponent.toInt) :
    frac (recompose d) = d.mantissa.extractLsb 51 0 := by
  refine BitVec.eq_of_getLsbD_eq fun i hi => ?_
  rw [frac_getLsbD _ hi, recompose_getLsbD_of_pos d h]
  simp [show i ≠ 63 by omega, hi]

/-- The port equations of R94, read on the triple. -/
theorem recompose_fields (d : DF) :
    sbit (recompose d) =
      (~~~boolBit d.sign ||| if 0 < d.exponent.toInt then d.exponent.extractLsb 11 11 else 0#1) ∧
    efield (recompose d) = (if 0 < d.exponent.toInt then d.exponent.extractLsb 10 0 else 0#11) ∧
    frac (recompose d) =
      (if 0 < d.exponent.toInt then d.mantissa.extractLsb 51 0 else d.mantissa.extractLsb 52 1) := by
  by_cases h : 0 < d.exponent.toInt
  case pos =>
    simp only [if_pos h]
    exact ⟨sbit_recompose_of_pos h, efield_recompose_of_pos h, frac_recompose_of_pos h⟩
  case neg =>
    have hle : d.exponent.toInt ≤ 0 := Int.not_lt.1 h
    simp only [if_neg h, BitVec.or_zero]
    exact ⟨sbit_recompose_of_le hle, efield_recompose_of_le hle, frac_recompose_of_le hle⟩

/-! ### What the word does not depend on -/

/-- With both exponents at most 0 only the sign and bits 52 to 1 of the mantissa count. -/
theorem recompose_congr_of_le {d e : DF} (hd : d.exponent.toInt ≤ 0) (he : e.exponent.toInt ≤ 0)
    (hs : d.sign = e.sign) (hm : d.mantissa.extractLsb 52 1 = e.mantissa.extractLsb 52 1) :
    recompose d = recompose e := by
  apply word_ext
  · rw [sbit_recompose_of_le hd, sbit_recompose_of_le he, hs]
  · rw [efield_recompose_of_le hd, efield_recompose_of_le he]
  · rw [frac_recompose_of_le hd, frac_recompose_of_le he, hm]

/-- In the normal case only bits 51 to 0 of the mantissa count. -/
theorem recompose_congr_of_pos {d e : DF} (hd : 0 < d.exponent.toInt) (hx : d.exponent = e.exponent)
    (hs : d.sign = e.sign) (hm : d.mantissa.extractLsb 51 0 = e.mantissa.extractLsb 51 0) :
    recompose d = recompose e := by
  have he : 0 < e.exponent.toInt := hx ▸ hd
  apply word_ext
  · rw [sbit_recompose_of_pos hd, sbit_recompose_of_pos he, hs, hx]
  · rw [efield_recompose_of_pos hd, efield_recompose_of_pos he, hx]
  · rw [frac_recompose_of_pos hd, frac_recompose_of_pos he, hm]

end Sys2Proof.Machine
end

section
/-! Well-formed triples: RECOMP loses nothing of them, since DECOMP gives them back (R128). -/

namespace Sys2Proof.Machine

/-! ### What the fields of a well-formed triple keep -/

theorem exponent_toInt_pos {x : BitVec 16} (h : x.toNat ≤ 2046) (h₀ : x ≠ 0#16) : 0 < x.toInt := by
  have hne := mt (exponent_eq_zero_iff x).1 h₀
  rw [BitVec.toInt_eq_toNat_of_lt (by omega)] at hne ⊢
  omega

theorem exponent_eq_setWidth {x : BitVec 16} (h : x.toNat ≤ 2046) : x = (x.extractLsb 10 0).setWidth 16 := by
  rw [← BitVec.toNat_inj, BitVec.toNat_setWidth, BitVec.extractLsb_toNat]
  omega

theorem exponent_bit11_eq_zero {x : BitVec 16} (h : x.toNat ≤ 2046) : x.extractLsb 11 11 = 0#1 := by
  rw [← BitVec.toNat_inj, BitVec.extractLsb_toNat, Nat.shiftRight_eq_div_pow, BitVec.toNat_ofNat]
  omega

theorem mantissa_eq_shiftLeft {m : BitVec 64} (hhi : m.extractLsb 63 53 = 0#11) (hlo : m.extractLsb 0 0 = 0#1) :
    m = (m.extractLsb 52 1).setWidth 64 <<< 1 := by
  rw [extractLsb_top_eq_zero_iff] at hhi
  rw [← BitVec.toNat_inj, BitVec.extractLsb_toNat, Nat.shiftRight_zero, BitVec.toNat_ofNat] at hlo
  rw [← BitVec.toNat_inj, subnormalMantissa_toNat, BitVec.extractLsb_toNat]
  omega

theorem mantissa_eq_or_bit52 {m : BitVec 64} (hhi : m.extractLsb 63 52 = 1#12) :
    m = (m.extractLsb 51 0).setWidth 64 ||| bit52 := by
  rw [← BitVec.toNat_inj, BitVec.extractLsb_toNat, Nat.shiftRight_eq_div_pow, BitVec.toNat_ofNat] at hhi
  rw [← BitVec.toNat_inj, normalMantissa_toNat, BitVec.extractLsb_toNat, Nat.shiftRight_zero]
  omega

/-! ### The triple read back -/

theorem eq_decide_not_boolBit_eq_zero (p : Bool) : p = decide (~~~boolBit p = 0#1) := by
  cases p <;> rfl

theorem decompose_recompose_of_exponent_eq_zero {d : DF} (hwf : d.wf = true) (h₀ : d.exponent = 0#16) :
    decompose (recompose d) = some d := by
  obtain ⟨-, hm⟩ := (wf_iff d).1 hwf
  obtain ⟨hhi, hlo⟩ := (if_pos h₀).mp hm
  have hle : d.exponent.toInt ≤ 0 := ((exponent_eq_zero_iff _).2 h₀).le
  rw [decompose_eq_some_iff, sbit_recompose_of_le hle, efield_recompose_of_le hle, frac_recompose_of_le hle]
  exact ⟨by decide, eq_decide_not_boolBit_eq_zero d.sign, h₀, mantissa_eq_shiftLeft hhi hlo⟩

theorem decompose_recompose_of_exponent_ne_zero {d : DF} (hwf : d.wf = true) (h₀ : d.exponent ≠ 0#16) :
    decompose (recompose d) = some d := by
  obtain ⟨hle, hm⟩ := (wf_iff d).1 hwf
  rw [if_neg h₀] at hm
  have hx := exponent_eq_setWidth hle
  have hpos := exponent_toInt_pos hle h₀
  rw [decompose_eq_some_iff, sbit_recompose_of_pos hpos, efield_recompose_of_pos hpos, frac_recompose_of_pos hpos,
    exponent_bit11_eq_zero hle, BitVec.or_zero, ← hx]
  refine ⟨fun htop => ?_, eq_decide_not_boolBit_eq_zero d.sign, rfl, ?_⟩
  · rw [hx, htop] at hle
    exact absurd hle (by decide)
  · have hfield : d.exponent.extractLsb 10 0 ≠ 0#11 := fun hz => h₀ (by rw [hx, hz]; rfl)
    rw [if_neg hfield]
    exact mantissa_eq_or_bit52 hm

/-- DECOMP gives a well-formed triple back from its word (R128). -/
theorem decompose_recompose {d : DF} (hwf : d.wf = true) : decompose (recompose d) = some d := by
  by_cases h₀ : d.exponent = 0#16
  · exact decompose_recompose_of_exponent_eq_zero hwf h₀
  · exact decompose_recompose_of_exponent_ne_zero hwf h₀

theorem recompose_injective_of_wf {d e : DF} (hd : d.wf = true) (he : e.wf = true) (h : recompose d = recompose e) :
    d = e :=
  Option.some.inj <|
    calc some d = decompose (recompose d) := (decompose_recompose hd).symm
      _ = decompose (recompose e) := by rw [h]
      _ = some e := decompose_recompose he

end Sys2Proof.Machine
end

section
/-! The port equations of R94 and their consequences for triples that are not well-formed. -/

namespace Sys2Proof.Machine

/-- A bit ORed into the sign bit is a second way to a negative word. -/
theorem not_boolBit_or_eq_one_iff (p : Bool) (b : BitVec 1) : ~~~boolBit p ||| b = 1#1 ↔ p = false ∨ b = 1#1 := by
  cases p
  case false => exact iff_of_true (BitVec.allOnes_or (x := b)) (.inl rfl)
  case true => rw [show ~~~boolBit true = 0#1 from rfl, BitVec.zero_or]; simp

/-- The port equations of R94. -/
theorem fOut_fields (s : State) :
    s.outputs.fOut.extractLsb 63 63 = (~~~s.inputs.r.sign |||
      (if 0 < s.inputs.r.exp.toInt then s.inputs.r.exp.extractLsb 11 11 else 0#1)) ∧
    s.outputs.fOut.extractLsb 62 52 = (if 0 < s.inputs.r.exp.toInt then s.inputs.r.exp.extractLsb 10 0 else 0#11) ∧
    s.outputs.fOut.extractLsb 51 0 =
      (if 0 < s.inputs.r.exp.toInt then s.inputs.r.mant.extractLsb 51 0 else s.inputs.r.mant.extractLsb 52 1) := by
  have h := recompose_fields s.inputs.r.toDF
  rw [show boolBit s.inputs.r.toDF.sign = s.inputs.r.sign from boolBit_bitBool _] at h
  exact h

/-- Settles O26, from the fields of the word given, what it does not depend on, and the triple read back (R94 fixes the
literal setting, D9; log 6). -/
theorem recompPortEquations : Obligations.RecompPortEquations := by
  refine ⟨fOut_fields, fun d hneg => ?negative, fun d htop => ?top, fun d hbig => ?passed,
    fun d m hpos hm => recompose_congr_of_pos hpos rfl rfl hm,
    fun d m hle hm => recompose_congr_of_le hle hle rfl hm,
    fun d e => recompose_injective_of_wf⟩
  case negative => exact recompose_congr_of_le hneg.le ((exponent_eq_zero_iff _).2 rfl).le rfl rfl
  case top =>
    rw [efield_recompose_of_pos (by omega), show d.exponent = 2047#16 from BitVec.eq_of_toInt_eq htop]
    rfl
  case passed =>
    have hpos : 0 < d.exponent.toInt := by omega
    rw [efield_recompose_of_pos hpos, sbit_recompose_of_pos hpos]
    exact ⟨rfl, not_boolBit_or_eq_one_iff d.sign _⟩

end Sys2Proof.Machine
end

section
/-! CMP as an operation (R101): what it reports, and steps 2 and 3 as a choice between the two field comparisons. -/

namespace Sys2Proof.Machine

theorem exec_cmp (s : State) : exec .cmp s = .next (s.report (.order (compareDF s.operandA s.operandB))) := rfl

/-- Steps 2 and 3 of R101 for two negatives. -/
theorem cmpMagnitude_eq_ite (a b : DF) : cmpMagnitude a b =
    if cmpS a.exponent b.exponent ≠ .equal then cmpS a.exponent b.exponent else cmpU a.mantissa b.mantissa := by
  unfold cmpMagnitude
  cases cmpS a.exponent b.exponent
  case less | equal | greater => rfl

/-- Steps 2 and 3 of R101 for two non-negatives: each field comparison is reversed. -/
theorem revOrd_cmpMagnitude_eq_ite (a b : DF) : revOrd (cmpMagnitude a b) =
    if cmpS a.exponent b.exponent ≠ .equal then revOrd (cmpS a.exponent b.exponent)
    else revOrd (cmpU a.mantissa b.mantissa) := by
  rw [cmpMagnitude_eq_ite, apply_ite revOrd]

/-- Settles O10, from what CMP reports, what reporting leaves unchanged, and steps 2 and 3 for either sign. -/
theorem cmpFollowsItsThreeSteps : Obligations.CmpFollowsItsThreeSteps := by
  intro s
  rw [exec_cmp, State.report_eq, compareDF, revOrd_cmpMagnitude_eq_ite, cmpMagnitude_eq_ite]

end Sys2Proof.Machine
end

section
/-! DECOMP loses nothing of a word it accepts: two words that give one triple are one word (R84). -/

namespace Sys2Proof.Machine

theorem bit_eq_not_boolBit_decide (b : BitVec 1) : b = ~~~boolBit (decide (b = 0#1)) := by
  revert b; decide

theorem decompose_sbit {w : Word} {d : DF} (h : decompose w = some d) : sbit w = ~~~boolBit d.sign := by
  obtain ⟨-, hs, -, -⟩ := (decompose_eq_some_iff w d).1 h
  rw [hs]
  exact bit_eq_not_boolBit_decide (sbit w)

/-- The exponent shows which of the two mantissa cases of R81 the words took, and each case keeps the fraction. -/
theorem eq_of_decompose_eq_some {v w : Word} {d : DF} (hv : decompose v = some d) (hw : decompose w = some d) :
    v = w := by
  have he : efield v = efield w :=
    BitVec.eq_of_toNat_eq ((decompose_exponent_toNat hv).symm.trans (decompose_exponent_toNat hw))
  have hf : (frac v).toNat = (frac w).toNat := by
    by_cases h₀ : (efield v).toNat = 0
    case pos =>
      have hmv := decompose_mantissa_toNat_of_efield_eq_zero hv h₀
      have hmw := decompose_mantissa_toNat_of_efield_eq_zero hw (he ▸ h₀)
      omega
    case neg =>
      have hmv := decompose_mantissa_toNat_of_efield_ne_zero hv h₀
      have hmw := decompose_mantissa_toNat_of_efield_ne_zero hw (he ▸ h₀)
      omega
  exact word_ext ((decompose_sbit hv).trans (decompose_sbit hw).symm) he (BitVec.eq_of_toNat_eq hf)

/-- Between constructed triples equality is equality of the words they came from. -/
theorem decompose_eq_iff_word_eq {v w : Word} {a b : DF} (ha : decompose v = some a) (hb : decompose w = some b) :
    a = b ↔ v = w := by
  constructor
  · rintro rfl
    exact eq_of_decompose_eq_some ha hb
  · rintro rfl
    exact Option.some.inj (ha.symm.trans hb)

end Sys2Proof.Machine
end

section
/-! EQ (R115): field by field, as `CMP = EQUAL`, and on the port `eq`. -/

namespace Sys2Proof.Machine

theorem exec_eq (s : State) : exec .eq s = .next (s.report (.bool (equalDF s.operandA s.operandB))) := rfl

theorem boolBit_eq_one_iff (p : Bool) : boolBit p = 1#1 ↔ p = true := by
  cases p <;> decide

theorem equalDF_eq_decide (a b : DF) :
    equalDF a b = decide (a.sign = b.sign ∧ a.exponent = b.exponent ∧ a.mantissa = b.mantissa) := by
  rw [equalDF, Bool.and_assoc, Bool.decide_and, Bool.decide_and]

/-- CMP tells any two triples apart, since the key it orders by does. -/
theorem compareDF_equal_iff (a b : DF) : compareDF a b = .equal ↔ a = b :=
  (compareDF_equal_iff_key a b).trans ⟨orderKey_injective, congrArg orderKey⟩

/-- Settles O15: EQ, CMP, the port and the source words all come down to equality of the triples. -/
theorem eqIsFieldwiseEquality : Obligations.EqIsFieldwiseEquality := by
  refine ⟨fun s => ?result, fun s => (boolBit_eq_one_iff _).trans (equalDF_iff _ _),
    fun a b => (equalDF_iff a b).trans (compareDF_equal_iff a b).symm,
    fun v w a b ha hb => (equalDF_iff a b).trans (decompose_eq_iff_word_eq ha hb),
    by decide, by decide, fun a => (equalDF_iff a a).2 rfl, by decide⟩
  case result => rw [exec_eq, State.report_eq, equalDF_eq_decide]

end Sys2Proof.Machine
end

section
/-! MIN and MAX (R117, R118): each is one of the operands, and its key in the order of CMP is the smaller or the larger
of the operands' keys. What holds of the minimum and maximum of two integers then holds of the triples. -/

namespace Sys2Proof.Machine

theorem exec_min (s : State) : exec .min s = .next (s.report (.triple (minDF s.operandA s.operandB))) := rfl

theorem exec_max (s : State) : exec .max s = .next (s.report (.triple (maxDF s.operandA s.operandB))) := rfl

@[simp] theorem outputs_min_toDF (s : State) : s.outputs.min.toDF = minDF s.operandA s.operandB :=
  toDF_tripleOnPort _

@[simp] theorem outputs_max_toDF (s : State) : s.outputs.max.toDF = maxDF s.operandA s.operandB :=
  toDF_tripleOnPort _

/-! ### The two choices CMP makes -/

theorem min_max_of_greater {a b : DF} (h : compareDF a b = .greater) : minDF a b = b ∧ maxDF a b = a :=
  ⟨(minDF_eq_ite a b).trans (if_pos h), (maxDF_eq_ite a b).trans (if_pos h)⟩

theorem min_max_of_not_greater {a b : DF} (h : compareDF a b ≠ .greater) : minDF a b = a ∧ maxDF a b = b :=
  ⟨(minDF_eq_ite a b).trans (if_neg h), (maxDF_eq_ite a b).trans (if_neg h)⟩

theorem minDF_eq_or (a b : DF) : minDF a b = a ∨ minDF a b = b := by
  rw [minDF_eq_ite]
  exact (ite_eq_or_eq _ b a).symm

theorem maxDF_eq_or (a b : DF) : maxDF a b = a ∨ maxDF a b = b := by
  rw [maxDF_eq_ite]
  exact ite_eq_or_eq _ a b

theorem minDF_self (a : DF) : minDF a a = a := or_self_iff.1 (minDF_eq_or a a)

theorem maxDF_self (a : DF) : maxDF a a = a := or_self_iff.1 (maxDF_eq_or a a)

theorem minDF_maxDF_perm (a b : DF) : [minDF a b, maxDF a b].Perm [a, b] := by
  by_cases h : compareDF a b = .greater
  case pos =>
    obtain ⟨hmin, hmax⟩ := min_max_of_greater h
    rw [hmin, hmax]
    exact List.Perm.swap a b []
  case neg =>
    obtain ⟨hmin, hmax⟩ := min_max_of_not_greater h
    rw [hmin, hmax]

/-! ### The keys of the two -/

theorem compareDF_ne_greater_iff (a b : DF) : compareDF a b ≠ .greater ↔ orderKey a ≤ orderKey b :=
  (not_congr (compareDF_greater_iff a b)).trans not_lt

theorem lessOrEqual_iff (a b : DF) : lessOrEqual a b = true ↔ orderKey a ≤ orderKey b :=
  decide_eq_true_iff.trans (compareDF_ne_greater_iff a b)

theorem orderKey_min_max (a b : DF) :
    orderKey (minDF a b) = min (orderKey a) (orderKey b) ∧ orderKey (maxDF a b) = max (orderKey a) (orderKey b) := by
  by_cases h : compareDF a b = .greater
  case pos =>
    obtain ⟨hmin, hmax⟩ := min_max_of_greater h
    have hle := ((compareDF_greater_iff a b).1 h).le
    rw [hmin, hmax, min_eq_right hle, max_eq_left hle]
    exact ⟨rfl, rfl⟩
  case neg =>
    obtain ⟨hmin, hmax⟩ := min_max_of_not_greater h
    have hle := (compareDF_ne_greater_iff a b).1 h
    rw [hmin, hmax, min_eq_left hle, max_eq_right hle]
    exact ⟨rfl, rfl⟩

theorem orderKey_minDF (a b : DF) : orderKey (minDF a b) = min (orderKey a) (orderKey b) :=
  (orderKey_min_max a b).1

theorem orderKey_maxDF (a b : DF) : orderKey (maxDF a b) = max (orderKey a) (orderKey b) :=
  (orderKey_min_max a b).2

theorem minDF_comm (a b : DF) : minDF a b = minDF b a :=
  orderKey_injective <|
    calc orderKey (minDF a b) = min (orderKey a) (orderKey b) := orderKey_minDF a b
      _ = min (orderKey b) (orderKey a) := min_comm _ _
      _ = orderKey (minDF b a) := (orderKey_minDF b a).symm

theorem minDF_le_maxDF (a b : DF) : lessOrEqual (minDF a b) (maxDF a b) = true := by
  rw [lessOrEqual_iff, orderKey_minDF, orderKey_maxDF]
  exact min_le_max

/-! ### The statements -/

/-- Settles O17, from MIN as CMP's choice of an operand and from its key as the smaller of the operands' keys. -/
theorem minIsTheOperandOrderedFirst : Obligations.MinIsTheOperandOrderedFirst := by
  refine ⟨fun s => ?result, fun s => (outputs_min_toDF s).trans (minDF_eq_ite _ _), minDF_eq_or,
    fun a b => (compareDF_equal_iff a b).1, minDF_comm, by decide, by decide, by decide, minDF_self, by decide⟩
  case result => rw [exec_min, State.report_eq, minDF_eq_ite]

/-- Settles O18, from MAX as CMP's choice of an operand, MIN as the other one, and their keys. -/
theorem maxIsTheOperandOrderedLast : Obligations.MaxIsTheOperandOrderedLast := by
  refine ⟨fun s => ?result, fun s => (outputs_max_toDF s).trans (maxDF_eq_ite _ _), maxDF_eq_or,
    fun a b => (compareDF_equal_iff a b).1, minDF_maxDF_perm, minDF_le_maxDF, by decide, by decide, by decide,
    maxDF_self, by decide⟩
  case result => rw [exec_max, State.report_eq, maxDF_eq_ite]

end Sys2Proof.Machine
end

section
/-! Construction gives only well-formed triples (R84), so reconstruction brings every accepted word back (R127): `w` and
`RECOMP(d)` have the same triple `d`, and DECOMP loses nothing. -/

namespace Sys2Proof.Machine

/-- The mantissa clause of R30 in the subnormal case: twice the fraction. -/
theorem decompose_mantissa_fields_of_efield_eq_zero {w : Word} {d : DF} (h : decompose w = some d)
    (h₀ : (efield w).toNat = 0) : d.mantissa.extractLsb 63 53 = 0#11 ∧ d.mantissa.extractLsb 0 0 = 0#1 := by
  refine ⟨(extractLsb_top_eq_zero_iff _).2 (decompose_mantissa_toNat_lt h), BitVec.eq_of_toNat_eq ?_⟩
  rw [BitVec.extractLsb_toNat, Nat.shiftRight_zero, decompose_mantissa_toNat_of_efield_eq_zero h h₀]
  exact Nat.mul_mod_right 2 _

/-- The mantissa clause of R30 in the normal case: the implicit one above the fraction. -/
theorem decompose_mantissa_field_of_efield_ne_zero {w : Word} {d : DF} (h : decompose w = some d)
    (h₀ : (efield w).toNat ≠ 0) : d.mantissa.extractLsb 63 52 = 1#12 := by
  have hm := decompose_mantissa_toNat_of_efield_ne_zero h h₀
  have hf := (frac w).isLt
  rw [← BitVec.toNat_inj, BitVec.extractLsb_toNat, Nat.shiftRight_eq_div_pow, BitVec.toNat_ofNat]
  omega

theorem wf_of_decompose {w : Word} {d : DF} (h : decompose w = some d) : d.wf = true := by
  have he := decompose_exponent_toNat h
  refine (wf_iff d).2 ⟨he.trans_le (decompose_efield_toNat_le h), ?_⟩
  by_cases h₀ : d.exponent = 0#16
  case pos =>
    rw [if_pos h₀]
    exact decompose_mantissa_fields_of_efield_eq_zero h (by rw [← he, h₀]; rfl)
  case neg =>
    rw [if_neg h₀]
    exact decompose_mantissa_field_of_efield_ne_zero h
      fun hz => h₀ (BitVec.eq_of_toNat_eq (he.trans hz))

theorem recompose_of_decompose {w : Word} {d : DF} (h : decompose w = some d) : recompose d = w :=
  eq_of_decompose_eq_some (decompose_recompose (wf_of_decompose h)) h

/-- Settles O29: `RECOMP(d)` is a word with the triple of `w`, and there is only one such word. -/
theorem roundTripFromWord : Obligations.RoundTripFromWord := fun _ _ => recompose_of_decompose

/-! ### Rejected and accepted words (R125) -/

/-- Settles O25, from R82 read on the exponent field as a number. -/
theorem decompRejectsExactlyTheNonFinite : Obligations.DecompRejectsExactlyTheNonFinite := fun w =>
  (decompose_eq_none_iff w).trans (efield_eq_top_iff (efield w)).symm

theorem exists_decompose_of_isFinite {w : Word} (h : isFinite w = true) : ∃ d, decompose w = some d :=
  Option.ne_none_iff_exists'.1 (mt (decompose_eq_none_iff w).1 ((isFinite_iff w).1 h))

theorem roundtrip_of_isFinite {w : Word} (h : isFinite w = true) : roundtrip w = some w := by
  obtain ⟨d, hd⟩ := exists_decompose_of_isFinite h
  rw [roundtrip, hd, Option.map_some, recompose_of_decompose hd]

/-- Settles O32: all six words are finite, so the round trip of R127 covers them. -/
theorem boundaryWordsRoundTrip : Obligations.BoundaryWordsRoundTrip := fun w hw =>
  roundtrip_of_isFinite (List.all_eq_true.1 (by decide) w hw)

end Sys2Proof.Machine
end

section
/-! The order on all triples (R130, R132): exchanging the operands reverses CMP, and LE and LT are the orders of the
integer key, so they have the order laws of the integers. -/

namespace Sys2Proof.Machine

/-! ### Antisymmetry and trichotomy (R130) -/

theorem compareDF_swap (a b : DF) : compareDF b a = revOrd (compareDF a b) := by
  cases h : compareDF a b
  case less => exact (compareDF_greater_iff_less b a).2 h
  case equal =>
    obtain rfl := (compareDF_equal_iff a b).1 h
    exact h
  case greater => exact (compareDF_greater_iff_less a b).1 h

theorem equalDF_eq_decide_compareDF (a b : DF) : equalDF a b = decide (compareDF a b = .equal) :=
  Bool.eq_iff_iff.2 <|
    calc equalDF a b = true
      _ ↔ a = b := equalDF_iff a b
      _ ↔ compareDF a b = .equal := (compareDF_equal_iff a b).symm
      _ ↔ decide (compareDF a b = .equal) = true := decide_eq_true_iff.symm

/-- Exactly one of LT, EQ and GT holds: each asks for another one of the three orders. -/
theorem lessThan_equalDF_greaterThan_trichotomy (a b : DF) :
    (lessThan a b = true ∧ equalDF a b = false ∧ greaterThan a b = false) ∨
    (lessThan a b = false ∧ equalDF a b = true ∧ greaterThan a b = false) ∨
    (lessThan a b = false ∧ equalDF a b = false ∧ greaterThan a b = true) := by
  rw [lessThan, greaterThan, equalDF_eq_decide_compareDF]
  cases compareDF a b
  case less | equal | greater => decide

/-- Settles O36, from the exchange of the operands, CMP as telling any two triples apart, and trichotomy. -/
theorem cmpIsAntisymmetric : Obligations.CmpIsAntisymmetric :=
  ⟨compareDF_swap, compareDF_equal_iff, lessThan_equalDF_greaterThan_trichotomy⟩

/-! ### LE and LT as the orders of the key (R132) -/

theorem compareDF_eq_less_or_equal_or_greater (a b : DF) :
    compareDF a b = .less ∨ compareDF a b = .equal ∨ compareDF a b = .greater := by
  cases compareDF a b
  case less | equal | greater => decide

theorem lessThan_iff (a b : DF) : lessThan a b = true ↔ orderKey a < orderKey b :=
  decide_eq_true_iff.trans (compareDF_less_iff a b)

/-- Settles O38: LE and LT are `≤` and `<` of the key, which is one-to-one, so each law is that of the integers. -/
theorem leAndLtAreTotalOrders : Obligations.LeAndLtAreTotalOrders := by
  unfold Obligations.LeAndLtAreTotalOrders
  simp only [← Bool.not_eq_true, lessOrEqual_iff, lessThan_iff]
  exact ⟨compareDF_eq_less_or_equal_or_greater, fun a => le_rfl, fun a b => le_total _ _,
    fun a b hab hba => orderKey_injective (le_antisymm hab hba), fun a b c => le_trans,
    fun a => lt_irrefl _, fun a b c => lt_trans, fun a b hne => lt_or_gt_of_ne (mt orderKey_injective hne)⟩

end Sys2Proof.Machine
end

section
/-! The sample sort of R136. Words are rearranged and their triples with them. -/

namespace Sys2Proof.Machine

/-- Of finite words the accepted ones are all. -/
theorem map_decompose_of_isFinite {ws : List Word} (h : ∀ w ∈ ws, isFinite w = true) :
    ws.map decompose = (ws.filterMap decompose).map some := by
  induction ws with
  | nil => rfl
  | cons w ws ih =>
    obtain ⟨d, hd⟩ := exists_decompose_of_isFinite (h w List.mem_cons_self)
    have htail := ih fun v hv => h v (List.mem_cons_of_mem w hv)
    rw [List.map_cons, List.filterMap_cons_some hd, List.map_cons, hd, htail]

/-- Settles O46: the words are finite, the second sequence of words rearranges the first, so the triples do too, and CMP
finds each triple in order with the next. -/
theorem sampleSequenceSorts : Obligations.SampleSequenceSorts :=
  ⟨_, _, map_decompose_of_isFinite (List.all_eq_true.1 (by decide)),
    map_decompose_of_isFinite (List.all_eq_true.1 (by decide)), List.Perm.filterMap decompose (by decide), by decide⟩

end Sys2Proof.Machine
end

section
/-! Exceptions (R146). An operation has one way to end, its report of a result, and there is no fault to raise. -/

namespace Sys2Proof.Machine

/-- Settles O54: the next state of an operation is the one in which it has reported its result, and a fault would be a
value of a type that has none. -/
theorem nothingFaults : Obligations.NothingFaults := by
  unfold Obligations.NothingFaults
  constructor
  · intro i s
    obtain ⟨r, hr⟩ := exec_reports i s
    exact ⟨s.report r, hr⟩
  · intro s e
    cases e

end Sys2Proof.Machine
end

section
/-! The round trip from a triple (R128), and DECOMP as a bijection between the finite words and the well-formed triples
(R126). The finite words are counted by their fields: only the exponent field is restricted. -/

namespace Sys2Proof.Machine

/-! ### The round trip -/

theorem isFinite_of_decompose {w : Word} {d : DF} (h : decompose w = some d) : isFinite w = true := by
  rw [isFinite_iff, ne_eq, ← decompose_eq_none_iff, h]
  exact Option.some_ne_none d

theorem isFinite_recompose {d : DF} (hwf : d.wf = true) : isFinite (recompose d) = true :=
  isFinite_of_decompose (decompose_recompose hwf)

/-- Settles O30: a well-formed triple comes back, and DECOMP gives well-formed triples only, so no other triple does. -/
theorem roundTripFromTriple : Obligations.RoundTripFromTriple := by
  refine ⟨fun d => decompose_recompose, fun d hwf => ?_⟩
  cases h : decompose (recompose d) with
  | none => exact .inl ⟨(efield_eq_top_iff _).2 ((decompose_eq_none_iff _).1 h), rfl⟩
  | some e =>
    have he := wf_of_decompose h
    refine .inr ⟨e, rfl, he, ?_⟩
    rintro rfl
    exact Bool.false_ne_true (hwf.symm.trans he)

/-! ### The bijection -/

theorem decompose_bijOn :
    Set.BijOn decompose {w : Word | isFinite w = true} (some '' {d : DF | d.wf = true}) := by
  refine ⟨fun w hw => ?mapsTo, fun v hv w hw h => ?injOn, ?surjOn⟩
  case mapsTo =>
    obtain ⟨d, hd⟩ := exists_decompose_of_isFinite hw
    exact ⟨d, wf_of_decompose hd, hd.symm⟩
  case injOn =>
    obtain ⟨d, hd⟩ := exists_decompose_of_isFinite hv
    exact eq_of_decompose_eq_some hd (h.symm.trans hd)
  case surjOn =>
    rintro _ ⟨d, hd, rfl⟩
    exact ⟨recompose d, isFinite_recompose hd, decompose_recompose hd⟩

theorem recompose_bijOn :
    Set.BijOn recompose {d : DF | d.wf = true} {w : Word | isFinite w = true} := by
  refine ⟨fun d => isFinite_recompose, fun d hd e he => recompose_injective_of_wf hd he, fun w hw => ?surjOn⟩
  case surjOn =>
    obtain ⟨d, hd⟩ := exists_decompose_of_isFinite hw
    exact ⟨d, wf_of_decompose hd, recompose_of_decompose hd⟩

/-! ### The number of finite words -/

@[simp] theorem sbit_append (s : BitVec 1) (e : BitVec 11) (f : BitVec 52) : sbit (s ++ e ++ f) = s :=
  calc sbit (s ++ e ++ f)
    _ = (s ++ e).extractLsb' 11 1 := BitVec.extractLsb'_append_eq_of_le (by decide)
    _ = s := BitVec.extractLsb'_append_eq_left

@[simp] theorem efield_append (s : BitVec 1) (e : BitVec 11) (f : BitVec 52) : efield (s ++ e ++ f) = e :=
  calc efield (s ++ e ++ f)
    _ = (s ++ e).extractLsb' 0 11 := BitVec.extractLsb'_append_eq_of_le (by decide)
    _ = e := BitVec.extractLsb'_append_eq_right

@[simp] theorem frac_append (s : BitVec 1) (e : BitVec 11) (f : BitVec 52) : frac (s ++ e ++ f) = f :=
  BitVec.extractLsb'_append_eq_right

/-- A finite word is its three fields, of which the exponent field is not 2047. -/
def finiteWordFields : {w : Word // isFinite w = true} ≃ BitVec 1 × {e : BitVec 11 // e ≠ 2047#11} × BitVec 52 where
  toFun w := (sbit w, ⟨efield w, (isFinite_iff w).1 w.2⟩, frac w)
  invFun x := ⟨x.1 ++ x.2.1.1 ++ x.2.2, by rw [isFinite_iff, efield_append]; exact x.2.1.2⟩
  left_inv w := Subtype.ext (append_fields w)
  right_inv x := by simp

theorem card_bitVec (n : ℕ) : Nat.card (BitVec n) = 2 ^ n := by
  rw [Nat.card_congr (BitVec.equivFin (m := n)).toEquiv, Nat.card_fin]

theorem card_finite_words : Nat.card {w : Word // isFinite w = true} = 2 ^ 64 - 2 ^ 53 := by
  have he : Nat.card {e : BitVec 11 // e ≠ 2047#11} = 2 ^ 11 - 1 :=
    calc Nat.card {e : BitVec 11 // e ≠ 2047#11}
      _ = ({2047#11}ᶜ : Set (BitVec 11)).ncard := Nat.card_coe_set_eq _
      _ = Nat.card (BitVec 11) - ({2047#11} : Set (BitVec 11)).ncard := Set.ncard_compl _
      _ = 2 ^ 11 - 1 := by rw [card_bitVec, Set.ncard_singleton]
  rw [Nat.card_congr finiteWordFields, Nat.card_prod, Nat.card_prod, card_bitVec, card_bitVec, he]
  norm_num

/-- Settles O31, from the two bijections, the two round trips and the count of finite words. -/
theorem decompIsABijection : Obligations.DecompIsABijection :=
  ⟨decompose_bijOn, recompose_bijOn, fun _ => roundtrip_of_isFinite, fun _ => decompose_recompose,
    card_finite_words⟩

end Sys2Proof.Machine
end

section
/-! The facts of R84 about constructed triples, and RECOMP on well-formed ones (R92). -/

namespace Sys2Proof.Machine

/-! ### Constructed triples (R84) -/

theorem decompose_sign_iff {w : Word} {d : DF} (h : decompose w = some d) : d.sign = true ↔ sbit w = 0#1 := by
  obtain ⟨-, hs, -⟩ := (decompose_eq_some_iff w d).1 h
  rw [hs, decide_eq_true_iff]

theorem bit52_of_top_eq_one {m : BitVec 64} (h : m.extractLsb 63 52 = 1#12) : m.extractLsb 52 52 = 1#1 := by
  rw [← BitVec.toNat_inj, BitVec.extractLsb_toNat, Nat.shiftRight_eq_div_pow, BitVec.toNat_ofNat] at h ⊢
  omega

/-- Settles O24, from R28 and R29 read in the two cases of R81, and DECOMP as losing nothing. -/
theorem constructedTriplesAreWellFormed : Obligations.ConstructedTriplesAreWellFormed := by
  refine ⟨fun w d h => ?_, fun v w d => eq_of_decompose_eq_some⟩
  obtain ⟨-, -, hlo, hhi, htop, hzero⟩ := exponentOfConstructedTriple w d h
  obtain ⟨hnormal, hsubnormal, hmant⟩ := mantissaOfConstructedTriple w d h
  refine ⟨wf_of_decompose h, ⟨hlo, hhi, htop⟩, hmant, fun h₀ => ?subnormal, fun h₀ => ?normal, decompose_sign_iff h⟩
  case subnormal =>
    have he := hzero.1 h₀
    obtain ⟨-, -, hle⟩ := hsubnormal he
    exact ⟨(decompose_mantissa_fields_of_efield_eq_zero h he).2, hle⟩
  case normal =>
    have he := mt hzero.2 h₀
    obtain ⟨-, hge, hlt⟩ := hnormal he
    exact ⟨bit52_of_top_eq_one (decompose_mantissa_field_of_efield_ne_zero h he), hge, hlt⟩

/-! ### RECOMP on well-formed triples (R92) -/

theorem recompose_of_exponent_eq_zero {d : DF} (h₀ : d.exponent = 0#16) :
    recompose d = (~~~boolBit d.sign ++ 0#11 ++ d.mantissa.extractLsb 52 1 : BitVec 64) := by
  have hle : d.exponent.toInt ≤ 0 := ((exponent_eq_zero_iff _).2 h₀).le
  rw [← append_fields (recompose d), sbit_recompose_of_le hle, efield_recompose_of_le hle, frac_recompose_of_le hle]

theorem recompose_of_exponent_ne_zero {d : DF} (hwf : d.wf = true) (h₀ : d.exponent ≠ 0#16) :
    recompose d = (~~~boolBit d.sign ++ d.exponent.extractLsb 10 0 ++ d.mantissa.extractLsb 51 0 : BitVec 64) := by
  obtain ⟨hle, -⟩ := (wf_iff d).1 hwf
  have hpos := exponent_toInt_pos hle h₀
  rw [← append_fields (recompose d), sbit_recompose_of_pos hpos, efield_recompose_of_pos hpos,
    frac_recompose_of_pos hpos, exponent_bit11_eq_zero hle, BitVec.or_zero]

/-- Settles O27, from the fields of the word given, the mantissa clause of R30 and the round trip of the triple. -/
theorem recompOnWellFormedInput : Obligations.RecompOnWellFormedInput := by
  intro d hwf
  obtain ⟨-, hm⟩ := (wf_iff d).1 hwf
  have hback := decompose_recompose hwf
  refine ⟨fun h₀ => ⟨recompose_of_exponent_eq_zero h₀, ?even⟩,
    fun h₀ => ⟨recompose_of_exponent_ne_zero hwf h₀, ?leadingOne⟩, hback, decompose_efield_toNat_le hback⟩
  case even =>
    rw [if_pos h₀] at hm
    exact hm.2
  case leadingOne =>
    rw [if_neg h₀] at hm
    exact bit52_of_top_eq_one hm

end Sys2Proof.Machine
end

section
/-! What one input bus carries after a line: what it held, the literal, the wires of the named value, or those of the
output wired to it (R169; log 9, log 10, log 17). -/

namespace Sys2Proof.Machine

theorem exists_out_of_wiredFrom {w : ℕ} {src : Option (Source w)} {g : PortGroup} (h : wiredFrom src = some g) :
    ∃ p lo, src = some (.out p lo) := by
  rcases src with _ | _ | _ | ⟨p, lo⟩
  · cases h
  · cases h
  · cases h
  · exact ⟨p, lo, rfl⟩

theorem drivenInputs_not_wired_at {s : State} {d : Drives} {inp : Inputs} (h : s.drivenInputs d = .ok inp) {x : InBus}
    (hw : wiredFrom (d.at x) = none) : inp.at x = placedBus s.wires (s.inputs.at x) (d.at x) := by
  obtain ⟨placed, hp, -⟩ := drivenInputs_eq_ok h
  rw [drivenInputs_of_port_not_wired hp h hw]
  obtain ⟨-, rfl⟩ := placedInputs_eq_ok.1 hp
  exact at_ofBuses _ x

theorem drivenInputs_held_at {s : State} {d : Drives} {inp : Inputs} (h : s.drivenInputs d = .ok inp) {x : InBus}
    (hx : d.at x = none) : inp.at x = s.inputs.at x := by
  rw [drivenInputs_not_wired_at h (by rw [hx]; rfl), hx]
  rfl

theorem drivenInputs_lit_at {s : State} {d : Drives} {inp : Inputs} (h : s.drivenInputs d = .ok inp) {x : InBus}
    {v : BitVec x.width} (hx : d.at x = some (.lit v)) : inp.at x = v := by
  rw [drivenInputs_not_wired_at h (by rw [hx]; rfl), hx]
  rfl

theorem drivenInputs_name_at {s : State} {d : Drives} {inp : Inputs} (h : s.drivenInputs d = .ok inp) {x : InBus}
    {y : NamePart} {lo : ℕ} {v : BitVec 64} (hx : d.at x = some (.name y lo)) (hv : s.wires.bits y = some v) :
    inp.at x = wiresFrom x.width v lo := by
  rw [drivenInputs_not_wired_at h (by rw [hx]; rfl), hx, placedBus, hv]
  rfl

theorem drivenInputs_out_at {s : State} {d : Drives} {inp : Inputs} (h : s.drivenInputs d = .ok inp) {x : InBus}
    {p : OutPort} {lo : ℕ} (hc : d.closes x = false) (hx : d.at x = some (.out p lo)) :
    inp.at x = wiresFrom x.width ((State.outputs { s with inputs := inp }).bits p) lo := by
  obtain ⟨placed, hp, -⟩ := drivenInputs_eq_ok h
  refine (drivenInputs_of_port_wired hp h hx).resolve_right fun hloop => ?_
  exact Bool.false_ne_true (hc.symm.trans hloop.1)

/-- A bus at which no loop closes carries what is placed there, or the output wired to it. -/
theorem drivenInputs_at {s : State} {d : Drives} {inp : Inputs} (h : s.drivenInputs d = .ok inp) {x : InBus}
    (hx : d.closes x = false) :
    inp.at x = carriedBus (State.outputs { s with inputs := inp }) (placedBus s.wires (s.inputs.at x) (d.at x))
      (d.at x) := by
  cases hw : wiredFrom (d.at x) with
  | none => rw [drivenInputs_not_wired_at h hw, carriedBus_of_not_wired _ _ hw]
  | some g =>
    obtain ⟨p, lo, hsrc⟩ := exists_out_of_wiredFrom hw
    rw [drivenInputs_out_at h hx hsrc, hsrc]
    rfl

end Sys2Proof.Machine
end

section
/-! What each operation delivers, as one function of the input ports, and that this is all an operation does. -/

namespace Sys2Proof.Machine

/-- What an operation delivers on the values of the input ports. -/
def Inputs.answer (inp : Inputs) : Instr → Result
  | .decomp => .optTriple (decompose inp.fIn)
  | .recomp => .word (recompose inp.r.toDF)
  | .cmp => .order (compareDF inp.a.toDF inp.b.toDF)
  | .lt => .bool (lessThan inp.a.toDF inp.b.toDF)
  | .le => .bool (lessOrEqual inp.a.toDF inp.b.toDF)
  | .gt => .bool (greaterThan inp.a.toDF inp.b.toDF)
  | .ge => .bool (greaterOrEqual inp.a.toDF inp.b.toDF)
  | .eq => .bool (equalDF inp.a.toDF inp.b.toDF)
  | .ne => .bool (notEqualDF inp.a.toDF inp.b.toDF)
  | .min => .triple (minDF inp.a.toDF inp.b.toDF)
  | .max => .triple (maxDF inp.a.toDF inp.b.toDF)

/-- An operation reports its answer, and nothing else happens. -/
theorem exec_eq_report_answer (i : Instr) (s : State) : exec i s = .next (s.report (s.inputs.answer i)) := by
  cases i <;> rfl

theorem eq_answer_of_exec {i : Instr} {s : State} {r : Result} (h : exec i s = .next (s.report r)) :
    r = s.inputs.answer i := by
  rw [exec_eq_report_answer, Host.Outcome.next.injEq] at h
  exact (Option.some.inj (congrArg State.result h)).symm

@[simp] theorem resultAfter_exec (i : Instr) (s : State) : resultAfter (exec i s) = some (s.inputs.answer i) := by
  rw [exec_eq_report_answer]; rfl

/-- Settles O19: every answer has the type of its operation's format. -/
theorem resultsFitTheirFormats : Obligations.ResultsFitTheirFormats := by
  intro i s t h
  rw [exec_eq_report_answer, Host.Outcome.next.injEq] at h
  subst h
  refine ⟨s.inputs.answer i, rfl, ?_⟩
  cases i <;> rfl

end Sys2Proof.Machine
end

section
/-! Every step keeps the triples constructed (R31, R32): the triple that a port is driven with, the result of an
operation on such ports, and the name it takes. -/

namespace Sys2Proof.Machine

/-! ### The invariant, part by part -/

/-- Well-formedness does not look at the sign (R30). -/
theorem wf_sign_irrel (m : BitVec 64) (e : BitVec 16) (p q : Bool) : DF.wf ⟨m, e, p⟩ = DF.wf ⟨m, e, q⟩ := rfl

/-- The triples on all three triple ports are well-formed. -/
def Inputs.Constructed (inp : Inputs) : Prop :=
  inp.r.toDF.wf = true ∧ inp.a.toDF.wf = true ∧ inp.b.toDF.wf = true

/-- The triples under all names are well-formed. -/
def Wires.Constructed (ws : Wires) : Prop :=
  (∀ e ∈ ws.o, e.2.all DF.wf = true) ∧ ∀ e ∈ ws.t, e.2.wf = true

theorem constructed_iff {s : State} : s.constructed = true ↔
    s.inputs.Constructed ∧ s.result.all Result.constructed = true ∧ s.wires.Constructed ∧
      ∀ l ∈ s.pending, l.constructed = true := by
  simp only [State.constructed, Inputs.Constructed, Wires.Constructed, Bool.and_eq_true, List.all_eq_true, and_assoc]

theorem wf_of_lookup {ws : Wires} (h : ws.Constructed) {n : ℕ} {t : DF} (ht : ws.t.lookup n = some t) :
    t.wf = true := by
  obtain ⟨before, after, hl, -⟩ := List.lookup_eq_some_iff.1 ht
  exact h.2 (n, t) (by simp [hl])

theorem wf_of_lookup_option {ws : Wires} (h : ws.Constructed) {n : ℕ} {t : DF} (ht : ws.o.lookup n = some (some t)) :
    t.wf = true := by
  obtain ⟨before, after, hl, -⟩ := List.lookup_eq_some_iff.1 ht
  simpa using h.1 (n, some t) (by simp [hl])

/-! ### The triple on a port after a line -/

/-- The exponent and the mantissa that a constructed drive brings to a port are those of one well-formed triple: the
literal, the named triple, or the one on `min_*` or `max_*`; or the port keeps both. -/
theorem wf_of_constructed_drive {t : TripleDrive} (ht : t.constructed = true) {ws : Wires} (hws : ws.Constructed)
    {o : Outputs} (ho : wiredFrom t.exp = some .comparator → o.min.toDF.wf = true ∧ o.max.toDF.wf = true)
    {held port : TriplePort} (hheld : held.toDF.wf = true)
    (he : port.exp = carriedBus o (placedBus ws held.exp t.exp) t.exp)
    (hm : port.mant = carriedBus o (placedBus ws held.mant t.mant) t.mant) : port.toDF.wf = true := by
  have hport : port.toDF.wf = DF.wf ⟨port.mant, port.exp, true⟩ := wf_sign_irrel _ _ _ _
  rw [hport, he, hm]
  rcases constructed_cases ht with ⟨hexp, hmant⟩ | ⟨e, m, hexp, hmant, hwf⟩ | ⟨n, hexp, hmant⟩ | ⟨hexp, hmant⟩ |
    ⟨hexp, hmant⟩ <;> rw [hexp, hmant]
  · exact hheld
  · exact hwf
  · cases hl : ws.t.lookup n with
    | none =>
      simp only [carriedBus, placedBus, Wires.bits, hl, Option.map_none, Option.getD_none]
      exact hheld
    | some u =>
      simp only [carriedBus, placedBus, Wires.bits, hl, Option.map_some, Option.getD_some, wiresFrom_whole,
        wiresFrom_setWidth_16]
      have hu := wf_of_lookup hws hl
      exact hu
  · simp only [carriedBus, Outputs.bits, wiresFrom_whole, wiresFrom_setWidth_16]
    exact (ho (by rw [hexp]; rfl)).1
  · simp only [carriedBus, Outputs.bits, wiresFrom_whole, wiresFrom_setWidth_16]
    exact (ho (by rw [hexp]; rfl)).2

/-- A comparator output wired to a bus of the comparator closes a loop there (R172). -/
theorem closes_of_comparator_wired {d : Drives} {x : InBus} (hg : x.group = .comparator)
    (hw : wiredFrom (d.at x) = some .comparator) : d.closes x = true := by
  rw [closes_of_wiredFrom hw, hg]
  rfl

theorem wf_minDF {a b : DF} (ha : a.wf = true) (hb : b.wf = true) : (minDF a b).wf = true := by
  rcases minDF_eq_or a b with h | h <;> rw [h] <;> assumption

theorem wf_maxDF {a b : DF} (ha : a.wf = true) (hb : b.wf = true) : (maxDF a b).wf = true := by
  rcases maxDF_eq_or a b with h | h <;> rw [h] <;> assumption

/-- A constructed line leaves constructed triples on the ports. The comparator's operands come first, since `r_*` may be
wired to its outputs. -/
theorem drivenInputs_constructed {s : State} {op : Byte} {d : Drives} {dest : Option ℕ} {inp : Inputs}
    (hin : s.inputs.Constructed) (hws : s.wires.Constructed) (hl : (Line.operation op d dest).constructed = true)
    (h : s.drivenInputs d = .ok inp) : inp.Constructed := by
  obtain ⟨hr, ha, hb⟩ := hin
  simp only [Line.constructed, Bool.and_eq_true, List.all_cons, List.all_nil, Bool.not_eq_true', and_true] at hl
  obtain ⟨⟨⟨dr, da⟩, db⟩, cre, crm, cae, cam, cbe, cbm⟩ := hl
  have hA : inp.a.toDF.wf = true :=
    wf_of_constructed_drive da hws
      (fun hw => absurd ((closes_of_comparator_wired (x := .aExp) rfl hw).symm.trans cae) Bool.noConfusion)
      ha (drivenInputs_at h cae) (drivenInputs_at h cam)
  have hB : inp.b.toDF.wf = true :=
    wf_of_constructed_drive db hws
      (fun hw => absurd ((closes_of_comparator_wired (x := .bExp) rfl hw).symm.trans cbe) Bool.noConfusion)
      hb (drivenInputs_at h cbe) (drivenInputs_at h cbm)
  refine ⟨wf_of_constructed_drive dr hws (fun _ => ?outputs) hr (drivenInputs_at h cre) (drivenInputs_at h crm), hA, hB⟩
  case outputs =>
    rw [outputs_min_toDF, outputs_max_toDF]
    exact ⟨wf_minDF hA hB, wf_maxDF hA hB⟩

/-! ### Results and names -/

theorem answer_constructed {inp : Inputs} (h : inp.Constructed) (i : Instr) : (inp.answer i).constructed = true := by
  obtain ⟨-, ha, hb⟩ := h
  cases i
  case decomp =>
    cases hd : decompose inp.fIn with
    | none => simp only [Inputs.answer, hd]; rfl
    | some d => simp only [Inputs.answer, hd]; exact wf_of_decompose hd
  case min => exact wf_minDF ha hb
  case max => exact wf_maxDF ha hb
  case recomp | cmp | lt | le | gt | ge | eq | ne => rfl

theorem report_constructed {s : State} {r : Result} (hin : s.inputs.Constructed) (hr : r.constructed = true)
    (hws : s.wires.Constructed) (hpend : ∀ l ∈ s.pending, l.constructed = true) : (s.report r).constructed = true :=
  constructed_iff.2 ⟨hin, hr, hws, hpend⟩

theorem assignResult_constructed {ws ws' : Wires} {n : ℕ} {r : Result} (hws : ws.Constructed)
    (hr : r.constructed = true) (h : ws.assignResult n r = some ws') : ws'.Constructed := by
  obtain ⟨ho, ht⟩ := hws
  rcases assignResult_eq_some h with ⟨w, rfl, -, rfl⟩ | ⟨o, rfl, -, rfl⟩ | ⟨t, rfl, -, rfl⟩ | ⟨c, rfl, -, rfl⟩ |
    ⟨p, rfl, -, rfl⟩
  case inr.inl => exact ⟨List.forall_mem_cons.2 ⟨hr, ho⟩, ht⟩
  case inr.inr.inl => exact ⟨ho, List.forall_mem_cons.2 ⟨hr, ht⟩⟩
  case inl | inr.inr.inr.inl | inr.inr.inr.inr => exact ⟨ho, ht⟩

theorem constructed_of_wires {s : State} {ws : Wires} (hs : s.constructed = true) (hws : ws.Constructed) :
    State.constructed { s with wires := ws } = true := by
  obtain ⟨hin, hres, -, hpend⟩ := constructed_iff.1 hs
  exact constructed_iff.2 ⟨hin, hres, hws, hpend⟩

theorem nameResult_constructed {s t : State} {n : ℕ} {r : Result} (hs : s.constructed = true)
    (hr : r.constructed = true) (h : s.nameResult n r = .next t) : t.constructed = true := by
  obtain ⟨ws, hws, rfl⟩ := nameResult_eq_next h
  obtain ⟨-, -, hw, -⟩ := constructed_iff.1 hs
  exact constructed_of_wires hs (assignResult_constructed hw hr hws)

theorem nameLast_constructed {s t : State} {dest : Option ℕ} (hs : s.constructed = true)
    (h : s.nameLast dest = .next t) : t.constructed = true := by
  obtain ⟨-, hres, hw, -⟩ := constructed_iff.1 hs
  rcases nameLast_eq_next h with rfl | ⟨n, r, ws, -, hr, hws, rfl⟩
  · exact hs
  · rw [hr] at hres
    exact constructed_of_wires hs (assignResult_constructed hw hres hws)

/-! ### Lines and steps -/

theorem apply_constructed {s t : State} {op : Byte} {i : Instr} {d : Drives} {dest : Option ℕ}
    (hs : s.constructed = true) (hl : (Line.operation op d dest).constructed = true)
    (h : s.apply i d dest = .next t) : t.constructed = true := by
  obtain ⟨hin, -, hws, hpend⟩ := constructed_iff.1 hs
  obtain ⟨inp, r, hdriven, hexec, hname⟩ := apply_eq_next h
  have hinp := drivenInputs_constructed hin hws hl hdriven
  obtain rfl := eq_answer_of_exec hexec
  exact nameLast_constructed (s := State.report { s with inputs := inp } _)
    (report_constructed hinp (answer_constructed hinp i) hws hpend) hname

theorem runLine_constructed {s t : State} {line : Line} (hs : s.constructed = true) (hl : line.constructed = true)
    (h : runLine line s = .next t) : t.constructed = true := by
  rcases runLine_eq_next h with ⟨op, d, dest, i, rest, rfl, -, happly⟩ | ⟨dest, src, rfl, hunwrap⟩ |
    ⟨dest, w, rfl, hname⟩
  · exact apply_constructed hs hl happly
  · obtain ⟨d, hd, hname⟩ := unwrap_eq_next hunwrap
    obtain ⟨-, -, hws, -⟩ := constructed_iff.1 hs
    exact nameResult_constructed (r := .triple d) hs (wf_of_lookup_option hws hd) hname
  · exact nameResult_constructed hs rfl hname

/-- Settles O56: the line that runs is one of the pending ones, and the others stay. -/
theorem stepsKeepTriplesConstructed : Obligations.StepsKeepTriplesConstructed := by
  intro s t hs h
  obtain ⟨hin, hres, hws, hpend⟩ := constructed_iff.1 hs
  obtain ⟨line, before, after, hp, hrun⟩ := step_eq_next h
  rw [hp, List.forall_mem_append, List.forall_mem_cons] at hpend
  obtain ⟨hbefore, hline, hafter⟩ := hpend
  have hrest := constructed_iff (s := { s with pending := before ++ after }).2
    ⟨hin, hres, hws, List.forall_mem_append.2 ⟨hbefore, hafter⟩⟩
  exact runLine_constructed hrest hline hrun

/-- Settles O57: the zeros on the ports (log 2) are the triple of -0.0, and nothing else holds a triple. -/
theorem resetTriplesAreConstructed : Obligations.ResetTriplesAreConstructed := by
  have hzero : TriplePort.zero.toDF.wf = true := by decide
  exact constructed_iff.2
    ⟨⟨hzero, hzero, hzero⟩, rfl, ⟨List.forall_mem_nil _, List.forall_mem_nil _⟩, List.forall_mem_nil _⟩

/-- Settles O28, from what RECOMP reports and the round trip of the well-formed triple on `r_*`. -/
theorem recompOfConstructedTripleIsFinite : Obligations.RecompOfConstructedTripleIsFinite := by
  intro s hs
  obtain ⟨⟨hr, -, -⟩, -⟩ := constructed_iff.1 hs
  exact ⟨recompose s.operandR, _, exec_recomp s, rfl, isFinite_recompose hr, decompose_recompose hr⟩

end Sys2Proof.Machine
end

section
/-! The relations derived from CMP (R111 to R114, R116): each asks for a set of CMP's outcomes, so exchanging the
operands exchanges LT with GT and LE with GE. -/

namespace Sys2Proof.Machine

/-! ### The relations among each other -/

@[simp] theorem compareDF_self (a : DF) : compareDF a a = .equal := (compareDF_equal_iff a a).2 rfl

theorem greaterThan_eq_lessThan_swap (a b : DF) : greaterThan a b = lessThan b a :=
  decide_eq_decide.2 (compareDF_greater_iff_less a b)

theorem greaterOrEqual_eq_lessOrEqual_swap (a b : DF) : greaterOrEqual a b = lessOrEqual b a :=
  decide_eq_decide.2 (not_congr (compareDF_greater_iff_less b a).symm)

theorem equalDF_comm (a b : DF) : equalDF a b = equalDF b a := by
  rw [Bool.eq_iff_iff, equalDF_iff, equalDF_iff, eq_comm]

theorem lessOrEqual_eq_or (a b : DF) : lessOrEqual a b = (lessThan a b || equalDF a b) := by
  rw [lessOrEqual, lessThan, equalDF_eq_decide_compareDF]
  cases compareDF a b
  case less | equal | greater => rfl

theorem greaterOrEqual_eq_or (a b : DF) : greaterOrEqual a b = (greaterThan a b || equalDF a b) := by
  rw [greaterOrEqual_eq_lessOrEqual_swap, lessOrEqual_eq_or, greaterThan_eq_lessThan_swap, equalDF_comm]

theorem notEqualDF_eq_or (a b : DF) : notEqualDF a b = (lessThan a b || greaterThan a b) := by
  rw [notEqualDF, equalDF_eq_decide_compareDF, lessThan, greaterThan]
  cases compareDF a b
  case less | equal | greater => rfl

theorem notEqualDF_iff (a b : DF) : notEqualDF a b = true ↔ a ≠ b := by
  rw [notEqualDF, Bool.not_eq_true', ← Bool.not_eq_true, equalDF_iff]

/-! ### The statements -/

/-- A Boolean port that carries a decided proposition is 1 exactly when it holds. -/
theorem boolBit_decide_eq_one_iff (p : Prop) [Decidable p] : boolBit (decide p) = 1#1 ↔ p :=
  (boolBit_eq_one_iff _).trans decide_eq_true_iff

/-- Settles O11: LT asks for the outcome LESS, and equal operands give EQUAL. -/
theorem ltIsCmpLess : Obligations.LtIsCmpLess :=
  ⟨exec_eq_report_answer .lt, fun _ => boolBit_decide_eq_one_iff _, by decide, by decide, by decide,
    fun a => by simp [lessThan], by decide⟩

/-- Settles O12: LE asks for any outcome but GREATER. -/
theorem leIsCmpNotGreater : Obligations.LeIsCmpNotGreater :=
  ⟨exec_eq_report_answer .le, fun _ => boolBit_decide_eq_one_iff _, lessOrEqual_eq_or, by decide,
    fun a => by simp [lessOrEqual], by decide, by decide, by decide⟩

/-- Settles O13: GT asks for the outcome GREATER, which is LESS with the operands exchanged. -/
theorem gtIsCmpGreater : Obligations.GtIsCmpGreater :=
  ⟨exec_eq_report_answer .gt, fun _ => boolBit_decide_eq_one_iff _, greaterThan_eq_lessThan_swap, by decide,
    by decide, fun a => by simp [greaterThan], by decide⟩

/-- Settles O14: GE asks for any outcome but LESS, which is LE with the operands exchanged. -/
theorem geIsCmpNotLess : Obligations.GeIsCmpNotLess :=
  ⟨exec_eq_report_answer .ge, fun _ => boolBit_decide_eq_one_iff _, greaterOrEqual_eq_lessOrEqual_swap, by decide,
    fun a => by simp [greaterOrEqual], by decide, by decide⟩

/-- Settles O16: NE is true of two triples exactly when they differ. -/
theorem neIsNotEq : Obligations.NeIsNotEq :=
  ⟨exec_eq_report_answer .ne, fun _ => (boolBit_eq_one_iff _).trans (notEqualDF_iff _ _),
    fun a b => (notEqualDF_iff a b).trans (not_congr (compareDF_equal_iff a b).symm), by decide, by decide,
    fun a => Bool.eq_false_iff.2 fun h => (notEqualDF_iff a a).1 h rfl, by decide⟩

end Sys2Proof.Machine
end

section
/-! CMP by the fields of its operands: the port equations of R103, the relations among the comparator's outputs (R119),
its corner cases (R105), and its transitivity (R131). -/

namespace Sys2Proof.Machine

/-! ### The order by signs and magnitudes -/

theorem revOrd_eq_greater_iff (o : Ord3) : revOrd o = .greater ↔ o = .less := by
  cases o <;> decide

theorem revOrd_eq_less_iff (o : Ord3) : revOrd o = .less ↔ o = .greater := by
  cases o <;> decide

theorem compareDF_greater_iff_fields (a b : DF) : compareDF a b = .greater ↔
    (a.sign = true ∧ b.sign = false) ∨ (a.sign = b.sign ∧ a.sign = true ∧ cmpMagnitude a b = .greater) ∨
      (a.sign = b.sign ∧ a.sign = false ∧ cmpMagnitude a b = .less) := by
  unfold compareDF
  cases a.sign <;> cases b.sign <;> simp [revOrd_eq_greater_iff]

theorem compareDF_less_iff_fields (a b : DF) : compareDF a b = .less ↔
    (a.sign = false ∧ b.sign = true) ∨ (a.sign = b.sign ∧ a.sign = true ∧ cmpMagnitude a b = .less) ∨
      (a.sign = b.sign ∧ a.sign = false ∧ cmpMagnitude a b = .greater) := by
  unfold compareDF
  cases a.sign <;> cases b.sign <;> simp [revOrd_eq_less_iff]

theorem eq_iff_fields (a b : DF) :
    a = b ↔ a.sign = b.sign ∧ a.exponent = b.exponent ∧ a.mantissa = b.mantissa := by
  rw [← equalDF_iff, equalDF_eq_decide, decide_eq_true_iff]

/-! ### The port equations (R103) -/

theorem bitBool_eq_true_iff (b : BitVec 1) : bitBool b = true ↔ b = 1#1 := decide_eq_true_iff

theorem bitBool_eq_false_iff (b : BitVec 1) : bitBool b = false ↔ b = 0#1 := by
  revert b; decide

theorem bitBool_inj (b c : BitVec 1) : bitBool b = bitBool c ↔ b = c := by
  revert b c; decide

theorem greaterMagnitude_iff (a b : TriplePort) :
    greaterMagnitude a b ↔ cmpMagnitude a.toDF b.toDF = .greater := by
  rw [cmpMagnitude_greater_iff, BitVec.toInt_inj]; rfl

theorem lessMagnitude_iff (a b : TriplePort) : lessMagnitude a b ↔ cmpMagnitude a.toDF b.toDF = .less := by
  rw [cmpMagnitude_less_iff, BitVec.toInt_inj]; rfl

theorem greaterEquation_iff (a b : TriplePort) : greaterEquation a b ↔ compareDF a.toDF b.toDF = .greater := by
  rw [compareDF_greater_iff_fields, greaterEquation, greaterMagnitude_iff, lessMagnitude_iff]
  simp only [TriplePort.toDF, bitBool_eq_true_iff, bitBool_eq_false_iff, bitBool_inj]

theorem lessEquation_iff (a b : TriplePort) : lessEquation a b ↔ compareDF a.toDF b.toDF = .less := by
  rw [compareDF_less_iff_fields, lessEquation, greaterMagnitude_iff, lessMagnitude_iff]
  simp only [TriplePort.toDF, bitBool_eq_true_iff, bitBool_eq_false_iff, bitBool_inj]

theorem equalEquation_iff (a b : TriplePort) : equalEquation a b ↔ compareDF a.toDF b.toDF = .equal := by
  rw [compareDF_equal_iff, eq_iff_fields, equalEquation]
  simp only [TriplePort.toDF, bitBool_inj]

theorem ordCode_inj {o o' : Ord3} : ordCode o = ordCode o' ↔ o = o' :=
  ⟨fun h => Option.some.inj (by rw [← ordOfCode_ordCode o, h, ordOfCode_ordCode]), congrArg ordCode⟩

/-- Settles O33: each equation holds exactly when CMP has that outcome, and CMP has exactly one. -/
theorem cmpPortEquations : Obligations.CmpPortEquations := by
  intro s
  rw [greaterEquation_iff, lessEquation_iff, equalEquation_iff]
  refine ⟨ordCode_inj (o' := .greater), ordCode_inj (o' := .less), ordCode_inj (o' := .equal), ?_⟩
  cases compareDF s.inputs.a.toDF s.inputs.b.toDF
  case less | equal | greater => decide

/-! ### The outputs of the comparator (R119) -/

theorem boolBit_or (p q : Bool) : boolBit (p || q) = boolBit p ||| boolBit q := by
  revert p q; decide

theorem maxDF_comm (a b : DF) : maxDF a b = maxDF b a :=
  orderKey_injective (by rw [orderKey_maxDF, orderKey_maxDF, max_comm])

/-- Settles O35, from the relations among LT, EQ, GT and the others, and what exchanging the operands does to each. -/
theorem comparatorOutputsAgree : Obligations.ComparatorOutputsAgree := by
  intro s
  refine ⟨?exactlyOne, (congrArg boolBit (lessOrEqual_eq_or _ _)).trans (boolBit_or _ _),
    (congrArg boolBit (greaterOrEqual_eq_or _ _)).trans (boolBit_or _ _),
    (congrArg boolBit (notEqualDF_eq_or _ _)).trans (boolBit_or _ _),
    (ordCode_inj (o' := .less)).trans (boolBit_decide_eq_one_iff _).symm,
    (ordCode_inj (o' := .equal)).trans ?equal,
    (ordCode_inj (o' := .greater)).trans (boolBit_decide_eq_one_iff _).symm,
    congrArg boolBit (greaterThan_eq_lessThan_swap _ _).symm, congrArg boolBit (greaterThan_eq_lessThan_swap _ _),
    congrArg boolBit (greaterOrEqual_eq_lessOrEqual_swap _ _).symm,
    congrArg boolBit (greaterOrEqual_eq_lessOrEqual_swap _ _), congrArg boolBit (equalDF_comm _ _),
    congrArg (fun p => boolBit !p) (equalDF_comm _ _), congrArg tripleOnPort (minDF_comm _ _),
    congrArg tripleOnPort (maxDF_comm _ _)⟩
  case exactlyOne =>
    simp only [State.outputs]
    rcases lessThan_equalDF_greaterThan_trichotomy s.operandA s.operandB with
      ⟨hl, he, hg⟩ | ⟨hl, he, hg⟩ | ⟨hl, he, hg⟩ <;>
    · rw [hl, he, hg]
      decide
  case equal =>
    exact ((boolBit_eq_one_iff _).trans ((equalDF_iff _ _).trans (compareDF_equal_iff _ _).symm)).symm

/-! ### Transitivity (R131) -/

/-- Settles O37: CMP is the order of the integer key. -/
theorem cmpIsTransitive : Obligations.CmpIsTransitive := by
  intro a b c hab hbc
  rw [compareDF_ne_greater_iff] at hab hbc
  rw [compareDF_ne_greater_iff, compareDF_less_iff, compareDF_less_iff, compareDF_less_iff]
  exact ⟨hab.trans hbc, fun h => h.elim (fun hlt => hlt.trans_le hbc) fun hlt => hab.trans_lt hlt⟩

/-! ### Corner cases (R105) -/

theorem exponent_toInt_nonneg {d : DF} (hwf : d.wf = true) : 0 ≤ d.exponent.toInt := by
  obtain ⟨hle, -⟩ := (wf_iff d).1 hwf
  rw [BitVec.toInt_eq_toNat_of_lt (by omega)]
  omega

theorem orderKey_posZero_le {d : DF} (hwf : d.wf = true) (hs : d.sign = true) : orderKey posZero ≤ orderKey d := by
  have he := exponent_toInt_nonneg hwf
  have hz : orderKey posZero = 2 ^ 79 := by decide
  have hk : orderKey d = (d.exponent.toInt + 2 ^ 15) * 2 ^ 64 + d.mantissa.toNat := if_pos hs
  omega

theorem orderKey_le_negZero {d : DF} (hwf : d.wf = true) (hs : d.sign = false) : orderKey d ≤ orderKey negZero := by
  have he := exponent_toInt_nonneg hwf
  have hz : orderKey negZero = -1 - 2 ^ 79 := by decide
  have hk : orderKey d = -1 - ((d.exponent.toInt + 2 ^ 15) * 2 ^ 64 + d.mantissa.toNat) :=
    if_neg (by rw [hs]; exact Bool.false_ne_true)
  omega

/-- Settles O39: the zeros have the extreme keys of their signs, and the other cases are read off the fields. -/
theorem cmpCornerCases : Obligations.CmpCornerCases := by
  refine ⟨by decide, by decide, fun a b => (compareDF_equal_iff a b).trans (eq_iff_fields a b),
    fun x hwf hs hne => ?negative, fun y hwf hs hne => ?nonNegative, fun a b ha hb he => ?exponent,
    fun a b ha hb he => ?exponentReversed, fun a b ha hb he hm => ?mantissaReversed, fun a b ha hb => ?opposite⟩
  case negative =>
    exact (compareDF_less_iff _ _).2 ((orderKey_le_negZero hwf hs).lt_of_ne (mt orderKey_injective hne))
  case nonNegative =>
    exact (compareDF_less_iff _ _).2 ((orderKey_posZero_le hwf hs).lt_of_ne (mt orderKey_injective hne.symm))
  case exponent =>
    exact (compareDF_less_iff_fields a b).2
      (.inr (.inl ⟨ha.trans hb.symm, ha, (cmpMagnitude_less_iff a b).2 (.inl he)⟩))
  case exponentReversed =>
    exact (compareDF_greater_iff_fields a b).2
      (.inr (.inr ⟨ha.trans hb.symm, ha, (cmpMagnitude_less_iff a b).2 (.inl he)⟩))
  case mantissaReversed =>
    exact (compareDF_greater_iff_fields a b).2
      (.inr (.inr ⟨ha.trans hb.symm, ha, (cmpMagnitude_less_iff a b).2 (.inr ⟨congrArg _ he, hm⟩)⟩))
  case opposite => exact (compareDF_less_iff_fields a b).2 (.inl ⟨ha, hb⟩)

end Sys2Proof.Machine
end

section
/-! The settings of U2 and U3 (log 6, log 7): on well-formed triples they all give what the machine gives. -/

namespace Sys2Proof.Machine

theorem recomposeUnder_of_wf (setting : RecompNonWF) (k : ℕ) {d : DF} (hwf : d.wf = true) :
    recomposeUnder setting k d = some (recompose d) := if_pos hwf

theorem compareUnder_of_wf (setting : CmpNonWF) {a b : DF} (ha : a.wf = true) (hb : b.wf = true) :
    compareUnder setting a b = some (compareDF a b) := if_pos (by rw [ha, hb]; rfl)

/-- Settles O60: well-formed triples do not reach the setting, and the machine's functions are the literal setting. -/
theorem settingsAgreeOnWellFormedTriples : Obligations.SettingsAgreeOnWellFormedTriples := by
  refine ⟨fun setting k s t hr h => ?recomp, fun setting s t ha hb h => ?cmp, fun k d => ite_self _,
    fun a b => ite_self _⟩
  case recomp =>
    rw [exec_recomp, Host.Outcome.next.injEq] at h
    exact ⟨_, recomposeUnder_of_wf setting k hr, h ▸ rfl⟩
  case cmp =>
    rw [exec_cmp, Host.Outcome.next.injEq] at h
    exact ⟨_, compareUnder_of_wf setting ha hb, h ▸ rfl⟩

end Sys2Proof.Machine
end

section
/-! The numbers that words and triples stand for (R57, R58), and CMP as their order (R133, R135). A well-formed triple
stands for plus or minus a natural number of units of `2 ^ -1075`, and exponent and mantissa order these numbers. -/

namespace Sys2Proof.Machine

/-! ### The value of a triple -/

/-- The sign of a triple as a factor. -/
def sgnDF (d : DF) : ℚ := if d.sign then 1 else -1

theorem sgnDF_of_nonneg {d : DF} (h : d.sign = true) : sgnDF d = 1 := if_pos h

theorem sgnDF_of_neg {d : DF} (h : d.sign = false) : sgnDF d = -1 := if_neg (h ▸ Bool.false_ne_true)

theorem valDF_of_pos {d : DF} (h : 1 ≤ d.exponent.toInt) :
    valDF d = sgnDF d * (d.mantissa.toNat : ℚ) * (2 : ℚ) ^ (d.exponent.toInt - 1075) := if_pos h

theorem valDF_of_not_pos {d : DF} (h : ¬1 ≤ d.exponent.toInt) :
    valDF d = sgnDF d * (d.mantissa.toNat : ℚ) * (2 : ℚ) ^ (-1075 : ℤ) := if_neg h

/-- Both lines of R58 are one expression. -/
theorem valDF_of_nonneg {d : DF} (h : 0 ≤ d.exponent.toInt) :
    valDF d = sgnDF d * (d.mantissa.toNat : ℚ) * (2 : ℚ) ^ (d.exponent.toInt - 1075) := by
  by_cases hpos : 1 ≤ d.exponent.toInt
  case pos => exact valDF_of_pos hpos
  case neg =>
    have hz : d.exponent.toInt = 0 := by omega
    rw [valDF_of_not_pos hpos, hz]
    rfl

/-! ### The value of a word -/

theorem sgn_of_decompose {w : Word} {d : DF} (h : decompose w = some d) :
    sgnDF d = if sbit w = 1#1 then -1 else 1 := by
  obtain ⟨-, hs, -⟩ := (decompose_eq_some_iff w d).1 h
  rw [sgnDF, hs]
  generalize sbit w = b
  revert b
  decide

theorem valWord_of_efield_eq_zero {w : Word} (h₀ : (efield w).toNat = 0) :
    valWord w = some ((if sbit w = 1#1 then -1 else 1) * ((frac w).toNat : ℚ) * (2 : ℚ) ^ (-1074 : ℤ)) :=
  (if_neg (by omega)).trans (congrArg some (if_pos h₀))

theorem valWord_of_efield_ne_zero {w : Word} (h₀ : (efield w).toNat ≠ 0) (htop : (efield w).toNat ≠ 2047) :
    valWord w = some ((if sbit w = 1#1 then -1 else 1) * ((2 : ℚ) ^ 52 + ((frac w).toNat : ℚ)) *
      (2 : ℚ) ^ (((efield w).toNat : ℤ) - 1075)) :=
  (if_neg htop).trans (congrArg some (if_neg h₀))

theorem valWord_of_decompose {w : Word} {d : DF} (h : decompose w = some d) : valWord w = some (valDF d) := by
  have hle := decompose_efield_toNat_le h
  have he := decompose_exponent_toInt h
  rw [valDF_of_nonneg (by omega), sgn_of_decompose h, he]
  by_cases h₀ : (efield w).toNat = 0
  case pos =>
    rw [valWord_of_efield_eq_zero h₀, decompose_mantissa_toNat_of_efield_eq_zero h h₀, h₀, Nat.cast_mul,
      show (-1074 : ℤ) = ((0 : ℕ) : ℤ) - 1075 + 1 from rfl, zpow_add_one₀ two_ne_zero]
    congr 1
    ring
  case neg =>
    rw [valWord_of_efield_ne_zero h₀ (by omega), decompose_mantissa_toNat_of_efield_ne_zero h h₀, Nat.cast_add,
      Nat.cast_pow]
    rfl

/-- Settles O40, from the mantissa of a constructed triple in the two cases of R81 and R58 as one expression. -/
theorem valueOfTripleIsValueOfWord : Obligations.ValueOfTripleIsValueOfWord :=
  ⟨fun _ _ => valWord_of_decompose, fun _ _ h => valDF_of_not_pos (by omega), fun _ _ => valDF_of_nonneg⟩

/-! ### The magnitude of a well-formed triple -/

/-- The magnitude that a triple stands for, in units of `2 ^ -1075`. -/
def unitsDF (d : DF) : ℕ := d.mantissa.toNat * 2 ^ d.exponent.toNat

theorem exponent_toInt_of_wf {d : DF} (hwf : d.wf = true) : d.exponent.toInt = d.exponent.toNat := by
  obtain ⟨hle, -⟩ := (wf_iff d).1 hwf
  exact BitVec.toInt_eq_toNat_of_lt (by omega)

theorem valDF_eq_units {d : DF} (hwf : d.wf = true) : valDF d = sgnDF d * unitsDF d * (2 : ℚ) ^ (-1075 : ℤ) := by
  have he := exponent_toInt_of_wf hwf
  rw [valDF_of_nonneg (by omega), he, sub_eq_add_neg, zpow_add₀ two_ne_zero, zpow_natCast, unitsDF, Nat.cast_mul,
    Nat.cast_pow, Nat.cast_ofNat]
  ring

/-- A well-formed mantissa is below `2 ^ 53`, and below `2 ^ 52` only at exponent 0. -/
theorem mantissa_toNat_of_wf {d : DF} (hwf : d.wf = true) :
    d.mantissa.toNat < 2 ^ 53 ∧ (d.exponent ≠ 0#16 → 2 ^ 52 ≤ d.mantissa.toNat) := by
  obtain ⟨-, -, hhi, -, hnormal, -⟩ := constructedTriplesAreWellFormed.1 _ d (decompose_recompose hwf)
  exact ⟨(extractLsb_top_eq_zero_iff _).1 hhi, fun h => (hnormal h).2.1⟩

/-- Exponent first, then mantissa, order the magnitudes: a normal mantissa is at least half of any mantissa's bound. -/
theorem units_lt_of_cmpMagnitude_less {a b : DF} (ha : a.wf = true) (hb : b.wf = true)
    (h : cmpMagnitude a b = .less) : unitsDF a < unitsDF b := by
  obtain ⟨hma, -⟩ := mantissa_toNat_of_wf ha
  obtain ⟨-, hmb⟩ := mantissa_toNat_of_wf hb
  have hea := exponent_toInt_of_wf ha
  have heb := exponent_toInt_of_wf hb
  rcases (cmpMagnitude_less_iff a b).1 h with he | ⟨he, hm⟩
  case inl =>
    have hlt : a.exponent.toNat + 1 ≤ b.exponent.toNat := by omega
    have hb52 : 2 ^ 52 ≤ b.mantissa.toNat := hmb fun hz => by rw [hz] at hlt; exact absurd hlt (by simp)
    calc unitsDF a
      _ < 2 ^ 53 * 2 ^ a.exponent.toNat := (Nat.mul_lt_mul_right (Nat.two_pow_pos _)).2 hma
      _ = 2 ^ 52 * 2 ^ (a.exponent.toNat + 1) := by rw [pow_succ 2 a.exponent.toNat]; omega
      _ ≤ unitsDF b := Nat.mul_le_mul hb52 (Nat.pow_le_pow_right two_pos hlt)
  case inr =>
    rw [BitVec.toInt_inj] at he
    rw [unitsDF, unitsDF, he]
    exact (Nat.mul_lt_mul_right (Nat.two_pow_pos _)).2 hm

/-- Only the zeros have magnitude 0. -/
theorem mantissa_exponent_eq_zero_of_units {d : DF} (hwf : d.wf = true) (h : unitsDF d = 0) :
    d.mantissa = 0#64 ∧ d.exponent = 0#16 := by
  obtain ⟨-, hnormal⟩ := mantissa_toNat_of_wf hwf
  have hm : d.mantissa.toNat = 0 := (Nat.mul_eq_zero.1 h).resolve_right (Nat.two_pow_pos _).ne'
  refine ⟨BitVec.eq_of_toNat_eq hm, ?_⟩
  by_contra hne
  have := hnormal hne
  omega

/-! ### CMP as the order of the values (R133) -/

theorem cmpMagnitude_greater_iff_less (a b : DF) : cmpMagnitude a b = .greater ↔ cmpMagnitude b a = .less := by
  rw [cmpMagnitude_less_iff, cmpMagnitude_greater_iff, eq_comm]

theorem valDF_negZero : valDF negZero = 0 := by
  rw [valDF_eq_units (by decide)]; simp [unitsDF, negZero]

theorem valDF_posZero : valDF posZero = 0 := by
  rw [valDF_eq_units (by decide)]; simp [unitsDF, posZero]

theorem eq_negZero_of_units {d : DF} (hwf : d.wf = true) (hs : d.sign = false) (h : unitsDF d = 0) : d = negZero := by
  obtain ⟨hm, he⟩ := mantissa_exponent_eq_zero_of_units hwf h
  exact (eq_iff_fields d negZero).2 ⟨hs, he, hm⟩

theorem eq_posZero_of_units {d : DF} (hwf : d.wf = true) (hs : d.sign = true) (h : unitsDF d = 0) : d = posZero := by
  obtain ⟨hm, he⟩ := mantissa_exponent_eq_zero_of_units hwf h
  exact (eq_iff_fields d posZero).2 ⟨hs, he, hm⟩

/-- What CMP orders first has the smaller value, or the two are the zeros. -/
theorem valDF_lt_or_zeros_of_less {a b : DF} (ha : a.wf = true) (hb : b.wf = true) (h : compareDF a b = .less) :
    valDF a < valDF b ∨ (a = negZero ∧ b = posZero) := by
  have hunit : (0 : ℚ) < (2 : ℚ) ^ (-1075 : ℤ) := by positivity
  rw [valDF_eq_units ha, valDF_eq_units hb, mul_lt_mul_iff_left₀ hunit]
  rcases (compareDF_less_iff_fields a b).1 h with ⟨sa, sb⟩ | ⟨hs, sa, hm⟩ | ⟨hs, sa, hm⟩
  case inl =>
    rw [sgnDF_of_neg sa, sgnDF_of_nonneg sb, neg_one_mul, one_mul]
    by_cases hz : unitsDF a = 0 ∧ unitsDF b = 0
    case pos => exact .inr ⟨eq_negZero_of_units ha sa hz.1, eq_posZero_of_units hb sb hz.2⟩
    case neg =>
      have hpos : (0 : ℚ) < unitsDF a + unitsDF b := by exact_mod_cast (by omega : 0 < unitsDF a + unitsDF b)
      exact .inl (by linarith)
  case inr.inl =>
    rw [sgnDF_of_nonneg sa, sgnDF_of_nonneg (hs ▸ sa), one_mul, one_mul, Nat.cast_lt]
    exact .inl (units_lt_of_cmpMagnitude_less ha hb hm)
  case inr.inr =>
    rw [sgnDF_of_neg sa, sgnDF_of_neg (hs ▸ sa), neg_one_mul, neg_one_mul, neg_lt_neg_iff, Nat.cast_lt]
    exact .inl (units_lt_of_cmpMagnitude_less hb ha ((cmpMagnitude_greater_iff_less a b).1 hm))

theorem valDF_eq_of_zeros {a b : DF} (h : a = negZero ∧ b = posZero) : valDF a = valDF b := by
  rw [h.1, h.2, valDF_negZero, valDF_posZero]

/-- The converse: of the two other outcomes neither leaves `a` the smaller value. -/
theorem compareDF_less_iff_valDF {a b : DF} (ha : a.wf = true) (hb : b.wf = true) :
    compareDF a b = .less ↔ valDF a < valDF b ∨ (a = negZero ∧ b = posZero) := by
  refine ⟨valDF_lt_or_zeros_of_less ha hb, fun h => ?_⟩
  rcases h with hlt | ⟨rfl, rfl⟩
  case inr => decide
  case inl =>
    rcases compareDF_eq_less_or_equal_or_greater a b with hc | hc | hc
    · exact hc
    · obtain rfl := (compareDF_equal_iff a b).1 hc
      exact absurd hlt (lt_irrefl _)
    · have hba := valDF_lt_or_zeros_of_less hb ha ((compareDF_greater_iff_less a b).1 hc)
      exact absurd hlt (hba.elim lt_asymm fun hz => (valDF_eq_of_zeros hz).not_gt)

theorem compareDF_greater_iff_valDF {a b : DF} (ha : a.wf = true) (hb : b.wf = true) :
    compareDF a b = .greater ↔ valDF b < valDF a ∨ (a = posZero ∧ b = negZero) := by
  rw [compareDF_greater_iff_less, compareDF_less_iff_valDF hb ha, and_comm]

/-- Settles O41, from the order of the values in both directions and CMP as telling any two triples apart. -/
theorem cmpIsRealNumberOrder : Obligations.CmpIsRealNumberOrder := fun a b ha hb =>
  ⟨compareDF_less_iff_valDF ha hb, compareDF_greater_iff_valDF ha hb, compareDF_equal_iff a b⟩

/-! ### Native comparison (R135) -/

/-- Settles O43: the values of the words are those of the triples, which CMP orders. -/
theorem relationsAgreeWithNativeComparison : Obligations.RelationsAgreeWithNativeComparison := by
  intro v w a b x y hv hw hx hy
  have hless := compareDF_less_iff_valDF (wf_of_decompose hv) (wf_of_decompose hw)
  have hgreater := compareDF_greater_iff_valDF (wf_of_decompose hv) (wf_of_decompose hw)
  obtain rfl : valDF a = x := Option.some.inj ((valWord_of_decompose hv).symm.trans hx)
  obtain rfl : valDF b = y := Option.some.inj ((valWord_of_decompose hw).symm.trans hy)
  refine ⟨fun hz hz' => ⟨?lt, ?gt, ?eq⟩, ?zeros, ?zerosReversed⟩
  case lt => exact decide_eq_true_iff.trans (hless.trans (or_iff_left hz))
  case gt => exact decide_eq_true_iff.trans (hgreater.trans (or_iff_left hz'))
  case eq =>
    rw [or_iff_left hz] at hless
    rw [or_iff_left hz'] at hgreater
    rw [equalDF_eq_decide_compareDF, decide_eq_true_iff]
    calc compareDF a b = .equal
      _ ↔ compareDF a b ≠ .less ∧ compareDF a b ≠ .greater := by cases compareDF a b <;> decide
      _ ↔ ¬valDF a < valDF b ∧ ¬valDF b < valDF a := and_congr (not_congr hless) (not_congr hgreater)
      _ ↔ valDF a = valDF b := by rw [not_lt, not_lt, and_comm, le_antisymm_iff]
  case zeros =>
    rintro rfl rfl
    exact ⟨valDF_eq_of_zeros ⟨rfl, rfl⟩, by decide, by decide⟩
  case zerosReversed =>
    rintro rfl rfl
    exact ⟨(valDF_eq_of_zeros ⟨rfl, rfl⟩).symm, by decide, by decide⟩

end Sys2Proof.Machine
end

section
/-! CMP as the order of the integer key of the word (R134): the key of a triple is a strictly increasing function of the
key of its word. -/

namespace Sys2Proof.Machine

/-- The exponent and the mantissa side by side, as `orderKey` has them, from bits 62 to 0 of the word. -/
def magnitudeKey (k : ℤ) : ℤ :=
  (k / 2 ^ 52 + 2 ^ 15) * 2 ^ 64 + if k < 2 ^ 52 then 2 * k else 2 ^ 52 + k % 2 ^ 52

theorem magnitudeKey_lt {j k : ℤ} (hj : 0 ≤ j) (h : j < k) : magnitudeKey j < magnitudeKey k := by
  unfold magnitudeKey
  split <;> split <;> omega

/-- The key of a triple from the key of its word: the negatives are mirrored below the non-negatives in both. -/
def orderKeyOfWordKey (k : ℤ) : ℤ :=
  if 0 ≤ k then magnitudeKey k else -1 - magnitudeKey (-1 - k)

theorem magnitudeKey_pos {k : ℤ} (hk : 0 ≤ k) : 0 < magnitudeKey k := by
  unfold magnitudeKey
  split <;> omega

theorem orderKeyOfWordKey_strictMono : StrictMono orderKeyOfWordKey := by
  intro j k h
  unfold orderKeyOfWordKey
  split <;> split
  case isTrue.isTrue hj hk => exact magnitudeKey_lt hj h
  case isTrue.isFalse hj hk => omega
  case isFalse.isTrue hj hk =>
    have hj := magnitudeKey_pos (k := -1 - j) (by omega)
    have hk := magnitudeKey_pos hk
    omega
  case isFalse.isFalse hj hk =>
    have := magnitudeKey_lt (j := -1 - k) (k := -1 - j) (by omega) (by omega)
    omega

/-- Bits 62 to 0 are the exponent field and the fraction. -/
theorem magnitude_toNat (w : Word) : (w.extractLsb 62 0).toNat = 2 ^ 52 * (efield w).toNat + (frac w).toNat := by
  have h : w.extractLsb' 52 11 ++ w.extractLsb' 0 52 = w.extractLsb' 0 63 :=
    BitVec.extractLsb'_append_extractLsb'_eq_extractLsb' rfl
  calc (w.extractLsb 62 0).toNat
    _ = (w.extractLsb' 52 11 ++ w.extractLsb' 0 52).toNat := congrArg BitVec.toNat h.symm
    _ = 2 ^ 52 * (efield w).toNat + (frac w).toNat := append_toNat _ _

theorem magnitudeKey_of_decompose {w : Word} {d : DF} (h : decompose w = some d) :
    magnitudeKey (w.extractLsb 62 0).toNat = (d.exponent.toInt + 2 ^ 15) * 2 ^ 64 + d.mantissa.toNat := by
  have he := decompose_exponent_toInt h
  have hf := (frac w).isLt
  rw [magnitude_toNat, magnitudeKey, he]
  by_cases h₀ : (efield w).toNat = 0
  case pos =>
    rw [decompose_mantissa_toNat_of_efield_eq_zero h h₀, if_pos (by omega)]
    omega
  case neg =>
    rw [decompose_mantissa_toNat_of_efield_ne_zero h h₀, if_neg (by omega)]
    omega

theorem orderKey_of_decompose {w : Word} {d : DF} (h : decompose w = some d) :
    orderKey d = orderKeyOfWordKey (wordKey w) := by
  have hs := decompose_sign_iff h
  have hm := magnitudeKey_of_decompose h
  by_cases hb : sbit w = 0#1
  case pos =>
    have hd : orderKey d = (d.exponent.toInt + 2 ^ 15) * 2 ^ 64 + d.mantissa.toNat := if_pos (hs.2 hb)
    have hw : wordKey w = (w.extractLsb 62 0).toNat := if_pos hb
    rw [hd, hw, orderKeyOfWordKey, if_pos (Int.natCast_nonneg _), hm]
  case neg =>
    have hd : orderKey d = -1 - ((d.exponent.toInt + 2 ^ 15) * 2 ^ 64 + d.mantissa.toNat) := if_neg (mt hs.1 hb)
    have hw : wordKey w = -1 - ((w.extractLsb 62 0).toNat : ℤ) := if_neg hb
    rw [hd, hw, orderKeyOfWordKey, if_neg (by omega), sub_sub_cancel, hm]

/-- Settles O42: an increasing function of the word's key orders as the key does. -/
theorem cmpIsKeyOrder : Obligations.CmpIsKeyOrder := by
  intro v w a b hv hw
  rw [compareDF_less_iff, compareDF_equal_iff_key, compareDF_greater_iff, orderKey_of_decompose hv,
    orderKey_of_decompose hw]
  exact ⟨orderKeyOfWordKey_strictMono.lt_iff_lt, orderKeyOfWordKey_strictMono.injective.eq_iff,
    orderKeyOfWordKey_strictMono.lt_iff_lt⟩

end Sys2Proof.Machine
end

section
/-! Sorted sequences (R120) as chains of the integer key, and the network of three compare-exchanges. -/

namespace Sys2Proof.Machine

/-! ### Sorted sequences -/

theorem isSorted_iff_isChain : ∀ l : List DF,
    isSorted l = true ↔ l.IsChain fun a b => lessOrEqual a b = true
  | [] => iff_of_true rfl .nil
  | [a] => iff_of_true rfl (.singleton a)
  | a :: b :: l => by
    rw [isSorted, Bool.and_eq_true, isSorted_iff_isChain (b :: l), List.isChain_cons_cons]

theorem isSorted_iff_neighbours (l : List DF) : isSorted l = true ↔
    ∀ (k : ℕ) (x y : DF), l[k]? = some x → l[k + 1]? = some y → lessOrEqual x y = true := by
  rw [isSorted_iff_isChain, List.isChain_iff_getElem]
  constructor
  · intro h k x y hx hy
    obtain ⟨hk, rfl⟩ := List.getElem?_eq_some_iff.1 hx
    obtain ⟨hk', rfl⟩ := List.getElem?_eq_some_iff.1 hy
    exact h k hk'
  · intro h k hk
    exact h k _ _ (List.getElem?_eq_getElem _) (List.getElem?_eq_getElem hk)

/-- LE is transitive, so in a sorted sequence it holds of any two members in their order. -/
theorem pairwise_of_isSorted {l : List DF} (h : isSorted l = true) :
    l.Pairwise fun a b => lessOrEqual a b = true := by
  have htrans : IsTrans DF fun a b => lessOrEqual a b = true :=
    ⟨fun a b c hab hbc => (lessOrEqual_iff a c).2
      (((lessOrEqual_iff a b).1 hab).trans ((lessOrEqual_iff b c).1 hbc))⟩
  exact List.isChain_iff_pairwise.1 ((isSorted_iff_isChain l).1 h)

theorem eq_of_lessOrEqual {a b : DF} (hab : lessOrEqual a b = true) (hba : lessOrEqual b a = true) : a = b :=
  orderKey_injective (((lessOrEqual_iff a b).1 hab).antisymm ((lessOrEqual_iff b a).1 hba))

/-- Settles O45: sorted sequences are ordered throughout, and LE is antisymmetric. -/
theorem sortedPermutationIsUnique : Obligations.SortedPermutationIsUnique :=
  ⟨isSorted_iff_neighbours, fun _ _ _ h₁ h₂ s₁ s₂ =>
    List.Perm.eq_of_pairwise (fun _ _ _ _ => eq_of_lessOrEqual) (pairwise_of_isSorted s₁) (pairwise_of_isSorted s₂)
      (h₁.trans h₂.symm)⟩

/-! ### The network of three compare-exchanges -/

theorem sortThree_isSorted (t₁ t₂ t₃ : DF) : isSorted (sortThree t₁ t₂ t₃) = true := by
  simp only [sortThree, cswap, isSorted, Bool.and_true, Bool.and_eq_true, lessOrEqual_iff, orderKey_minDF,
    orderKey_maxDF]
  omega

/-- Each compare-exchange rearranges two of the three. -/
theorem sortThree_perm (t₁ t₂ t₃ : DF) : (sortThree t₁ t₂ t₃).Perm [t₁, t₂, t₃] :=
  calc sortThree t₁ t₂ t₃
    List.Perm _ ([minDF t₁ t₂, minDF (maxDF t₁ t₂) t₃] ++ [maxDF (maxDF t₁ t₂) t₃]) :=
      (minDF_maxDF_perm _ _).append_right [maxDF (maxDF t₁ t₂) t₃]
    List.Perm _ (minDF t₁ t₂ :: [maxDF t₁ t₂, t₃]) := (minDF_maxDF_perm (maxDF t₁ t₂) t₃).cons (minDF t₁ t₂)
    List.Perm _ ([t₁, t₂] ++ [t₃]) := (minDF_maxDF_perm t₁ t₂).append_right [t₃]

/-- Settles O47, from the keys of the three results and the three exchanges. -/
theorem threeStepNetworkSorts : Obligations.ThreeStepNetworkSorts := fun t₁ t₂ t₃ =>
  ⟨sortThree_isSorted t₁ t₂ t₃, sortThree_perm t₁ t₂ t₃⟩

end Sys2Proof.Machine
end

section
/-! The decoder (R66, R67): which bytes decode, to what, and that the encoder is its inverse. -/

namespace Sys2Proof.Machine

/-- A byte above the table's numbers decodes to no operation. -/
theorem decodeOp_of_gt {b : Byte} (rest : List Byte) (h : 0xA < b.toNat) :
    decodeOp b rest = if b.toNat < 16 then .noSuchOperation b else .notAnOperationNumber b := by
  unfold decodeOp
  split
  case h_12 => rfl
  all_goals omega

/-- A byte that decodes is the number of its operation, and the bytes after it are kept. -/
theorem eq_opByte_of_decodeOp {b : Byte} {rest rest' : List Byte} {i : Instr}
    (h : decodeOp b rest = .ok i rest') : b = i.opByte ∧ rest = rest' := by
  have hb : ∀ {j : Instr}, b.toNat = j.opByte.toNat → Decoded.ok j rest = .ok i rest' →
      b = i.opByte ∧ rest = rest' := by
    rintro j hj hok
    cases hok
    exact ⟨BitVec.eq_of_toNat_eq hj, rfl⟩
  unfold decodeOp at h
  split at h
  case h_12 => split at h <;> cases h
  all_goals exact hb ‹_› h

theorem decode_opByte (i : Instr) (rest : List Byte) : decode (i.opByte :: rest) = .ok i rest := by
  cases i <;> rfl

theorem exists_decodeOp_of_le {b : Byte} (rest : List Byte) (h : b.toNat ≤ 0xA) :
    ∃ i, decodeOp b rest = .ok i rest := by
  unfold decodeOp
  split
  case h_12 =>
    simp only [imp_false] at *
    omega
  all_goals exact ⟨_, rfl⟩

/-- Settles O2: each number of the table is the byte of its operation. -/
theorem operationNumbersDecode : Obligations.OperationNumbersDecode :=
  ⟨decode_opByte .decomp [], decode_opByte .recomp [], decode_opByte .cmp [], decode_opByte .lt [],
    decode_opByte .le [], decode_opByte .gt [], decode_opByte .ge [], decode_opByte .eq [], decode_opByte .ne [],
    decode_opByte .min [], decode_opByte .max []⟩

/-- Settles O3, from the two halves of the table, and a line of an unassigned number waiting for nothing. -/
theorem unassignedNumbersNameNoOperation : Obligations.UnassignedNumbersNameNoOperation := by
  have hnone : ∀ (b : Byte) (rest : List Byte), 0xB ≤ b.toNat → b.toNat ≤ 0xF →
      decode (b :: rest) = .noSuchOperation b := fun b rest hlo hhi =>
    (decodeOp_of_gt rest (by omega)).trans (if_pos (by omega))
  refine ⟨fun b rest h => exists_decodeOp_of_le rest h, hnone,
    fun b rest h => (decodeOp_of_gt rest (by omega)).trans (if_neg (by omega)),
    fun s b d dest rest hp hlo hhi => ?refused⟩
  case refused =>
    have hb := hnone b [] hlo hhi
    rw [step_of_pending hp (waits_unassigned _ _ _ _ (by simp [operationOf, hb]))]
    simp [runLine, hb]

/-- Settles O4: the first byte decides, and it is the number of the operation it decodes to. -/
theorem decodeInvertsEncode : Obligations.DecodeInvertsEncode := by
  refine ⟨decode_opByte, fun i bytes rest h => ?_⟩
  cases bytes with
  | nil => cases h
  | cons b tail =>
    obtain ⟨rfl, rfl⟩ := eq_opByte_of_decodeOp h
    rfl

end Sys2Proof.Machine
end

section
/-! The state at reset (log 2, log 3), and that every step keeps each name assigned once (R69). -/

namespace Sys2Proof.Machine

/-- Settles O1: each field as it stands, and no line to present. -/
theorem resetHoldsZeroPortsAndNothingPending : Obligations.ResetHoldsZeroPortsAndNothingPending := by
  refine ⟨rfl, ?ports, rfl, rfl, rfl, rfl, rfl⟩
  case ports => decide

/-- Settles O59: no list of names has an entry. -/
theorem resetAssignsNoName : Obligations.ResetAssignsNoName :=
  ⟨List.nodup_nil, List.nodup_nil, List.nodup_nil, List.nodup_nil, List.nodup_nil⟩

theorem nodup_cons_of_lookup_eq_none {α : Type} {l : List (ℕ × α)} {n : ℕ} (v : α) (hl : (l.map Prod.fst).Nodup)
    (h : l.lookup n = none) : (((n, v) :: l).map Prod.fst).Nodup := by
  refine List.nodup_cons.2 ⟨fun hm => ?_, hl⟩
  obtain ⟨e, he, rfl⟩ := List.mem_map.1 hm
  simpa using List.lookup_eq_none_iff.1 h e he

/-- Only a free name is assigned, so no name comes twice into its list. -/
theorem assignResult_assignedOnce {ws ws' : Wires} {n : ℕ} {r : Result} (hws : ws.assignedOnce)
    (h : ws.assignResult n r = some ws') : ws'.assignedOnce := by
  obtain ⟨hf, ho, ht, hc, hp⟩ := hws
  rcases assignResult_eq_some h with ⟨v, rfl, hn, rfl⟩ | ⟨v, rfl, hn, rfl⟩ | ⟨v, rfl, hn, rfl⟩ | ⟨v, rfl, hn, rfl⟩ |
    ⟨v, rfl, hn, rfl⟩
  · exact ⟨nodup_cons_of_lookup_eq_none v hf hn, ho, ht, hc, hp⟩
  · exact ⟨hf, nodup_cons_of_lookup_eq_none v ho hn, ht, hc, hp⟩
  · exact ⟨hf, ho, nodup_cons_of_lookup_eq_none v ht hn, hc, hp⟩
  · exact ⟨hf, ho, ht, nodup_cons_of_lookup_eq_none v hc hn, hp⟩
  · exact ⟨hf, ho, ht, hc, nodup_cons_of_lookup_eq_none v hp hn⟩

/-- Assigning leaves every name alone that has a value, since the name assigned has none. -/
theorem assignResult_agreeAt_of_has {ws ws' : Wires} {n : ℕ} {r : Result} (h : ws.assignResult n r = some ws')
    {nm : Name} (hnm : ws.has nm = true) : ws'.agreeAt ws nm := by
  refine assignResult_agreeAt h ?_
  rintro rfl
  exact Bool.false_ne_true (((assignResult_isSome_iff ws n r).1 ⟨ws', h⟩).symm.trans hnm)

/-- What a line gives leaves every name alone that has a value. -/
theorem given_agreeAt_of_has {ws ws' : Wires} {g : Option (ℕ × Result)} (h : ws.given ws' g) {nm : Name}
    (hnm : ws.has nm = true) : ws'.agreeAt ws nm := by
  cases g with
  | none =>
    obtain rfl : ws' = ws := h
    cases nm <;> rfl
  | some x => exact assignResult_agreeAt_of_has h hnm

theorem given_assignedOnce {ws ws' : Wires} {g : Option (ℕ × Result)} (h : ws.given ws' g)
    (hws : ws.assignedOnce) : ws'.assignedOnce := by
  cases g with
  | none =>
    obtain rfl : ws' = ws := h
    exact hws
  | some x => exact assignResult_assignedOnce hws h

/-- Settles O58: the line that runs gives nothing, or one value to a name that had none. -/
theorem stepsAssignEachNameOnce : Obligations.StepsAssignEachNameOnce := by
  intro s t hs h
  obtain ⟨line, before, after, -, hrun⟩ := step_eq_next h
  obtain ⟨g, -, hg, -⟩ := runLine_gives hrun
  have hkeep : ∀ nm, s.wires.has nm = true → t.wires.agreeAt s.wires nm := fun nm => given_agreeAt_of_has hg
  exact ⟨given_assignedOnce hg hs,
    fun n v hv => (hkeep (.f n) (by simp [Wires.has, hv])).trans hv,
    fun n v hv => (hkeep (.o n) (by simp [Wires.has, hv])).trans hv,
    fun n v hv => (hkeep (.t n) (by simp [Wires.has, hv])).trans hv,
    fun n v hv => (hkeep (.c n) (by simp [Wires.has, hv])).trans hv,
    fun n v hv => (hkeep (.p n) (by simp [Wires.has, hv])).trans hv⟩

end Sys2Proof.Machine
end

section
/-! The port equations of DECOMP (R83), and the outputs of each group as functions of its own inputs (R22). -/

namespace Sys2Proof.Machine

/-! ### The port equations of R83 -/

theorem dValid_eq_one_iff (s : State) : s.outputs.dValid = 1#1 ↔ ∃ d, decompose s.inputs.fIn = some d :=
  (boolBit_eq_one_iff _).trans Option.isSome_iff_exists

theorem dValid_eq_one_iff_field (s : State) :
    s.outputs.dValid = 1#1 ↔ (s.inputs.fIn.extractLsb 62 52).toNat ≠ 2047 := by
  rw [dValid_eq_one_iff, ← Option.ne_none_iff_exists', ne_eq, decompRejectsExactlyTheNonFinite]

theorem exponent_setWidth_eq_append (e : BitVec 11) : e.setWidth 16 = 0#5 ++ e := by
  rw [← BitVec.toNat_inj, append_toNat, BitVec.toNat_setWidth_of_le (by decide), BitVec.toNat_ofNat]
  omega

theorem subnormalMantissa_eq_append (f : BitVec 52) : f.setWidth 64 <<< 1 = (0#11 ++ f ++ 0#1 : BitVec 64) := by
  rw [← BitVec.toNat_inj, subnormalMantissa_toNat, append_toNat, append_toNat]
  simp

theorem normalMantissa_eq_append (f : BitVec 52) : f.setWidth 64 ||| bit52 = (0#11 ++ 1#1 ++ f : BitVec 64) := by
  rw [← BitVec.toNat_inj, normalMantissa_toNat, append_toNat, append_toNat]
  simp

/-- Settles O23, from the fields of a constructed triple, each as the wires of the word it comes from. -/
theorem decompPortEquations : Obligations.DecompPortEquations := by
  intro s
  refine ⟨dValid_eq_one_iff_field s, fun hvalid => ?_⟩
  obtain ⟨d, hd⟩ := (dValid_eq_one_iff s).1 hvalid
  obtain ⟨-, -, he, hm⟩ := (decompose_eq_some_iff _ _).1 hd
  rw [outputs_d_of_some hd, toDF_tripleOnPort]
  refine ⟨?sign, he.trans (exponent_setWidth_eq_append _), hm.trans ?mantissa, hd⟩
  case sign =>
    rw [← sbit, decompose_sbit hd, BitVec.not_not]
    rfl
  case mantissa =>
    rw [subnormalMantissa_eq_append, normalMantissa_eq_append]
    rfl

/-! ### The port groups (R22) -/

theorem outputs_d_congr {s t : State} (h : s.inputs.fIn = t.inputs.fIn) (hd : s.draws = t.draws) :
    s.outputs.d = t.outputs.d := by
  simp only [State.outputs, State.decomposerOut, State.operandW, h, hd]

/-- Settles O52: each output reads the inputs of its own group, and `d_*` of an absent result the counter as well
(log 5). -/
theorem portGroupsAreIndependent : Obligations.PortGroupsAreIndependent := by
  refine ⟨fun s t h => ⟨?dValid, fun hvalid => ?d, outputs_d_congr h⟩, fun s t h => ?fOut, fun s t ha hb => ?comparator⟩
  case dValid => simp only [State.outputs, State.operandW, h]
  case d =>
    obtain ⟨d, hd⟩ := (dValid_eq_one_iff s).1 hvalid
    rw [outputs_d_of_some hd, outputs_d_of_some (h ▸ hd)]
  case fOut => rw [outputs_fOut_eq, outputs_fOut_eq, h]
  case comparator => simp only [State.outputs, State.operandA, State.operandB, ha, hb, and_self]

end Sys2Proof.Machine
end

section
/-! What a line puts on the input ports (R32, R169): whole triple ports, where loops close (R172; log 16), and the lines
that always drive their ports. -/

namespace Sys2Proof.Machine

/-! ### A triple port driven from one named triple -/

/-- A triple whose three buses carry the parts of the named triple `t<n>` is that triple. -/
theorem toDF_of_named {port : TriplePort} {t : DF}
    (hs : port.sign = wiresFrom 1 ((boolBit t.sign).setWidth 64) 0)
    (he : port.exp = wiresFrom 16 (t.exponent.setWidth 64) 0) (hm : port.mant = wiresFrom 64 t.mantissa 0) :
    port.toDF = t := by
  rw [wiresFrom_setWidth_1] at hs
  rw [wiresFrom_setWidth_16] at he
  rw [wiresFrom_whole] at hm
  rw [TriplePort.toDF, hs, he, hm, bitBool_boolBit]

theorem bits_of_named {ws : Wires} {n : ℕ} {t : DF} (h : ws.t.lookup n = some t) :
    ws.bits (.tSign n) = some ((boolBit t.sign).setWidth 64) ∧ ws.bits (.tExp n) = some (t.exponent.setWidth 64) ∧
      ws.bits (.tMant n) = some t.mantissa := by
  simp [Wires.bits, h]

theorem drivenInputs_named {s : State} {d : Drives} {inp : Inputs} (h : s.drivenInputs d = .ok inp) {n : ℕ} {t : DF}
    (ht : s.wires.t.lookup n = some t) :
    (d.r = .named n → inp.r.toDF = t) ∧ (d.a = .named n → inp.a.toDF = t) ∧ (d.b = .named n → inp.b.toDF = t) := by
  obtain ⟨hs, he, hm⟩ := bits_of_named ht
  refine ⟨fun hd => ?r, fun hd => ?a, fun hd => ?b⟩
  case r =>
    exact toDF_of_named (drivenInputs_name_at (x := .rSign) h (congrArg TripleDrive.sign hd) hs)
      (drivenInputs_name_at (x := .rExp) h (congrArg TripleDrive.exp hd) he)
      (drivenInputs_name_at (x := .rMant) h (congrArg TripleDrive.mant hd) hm)
  case a =>
    exact toDF_of_named (drivenInputs_name_at (x := .aSign) h (congrArg TripleDrive.sign hd) hs)
      (drivenInputs_name_at (x := .aExp) h (congrArg TripleDrive.exp hd) he)
      (drivenInputs_name_at (x := .aMant) h (congrArg TripleDrive.mant hd) hm)
  case b =>
    exact toDF_of_named (drivenInputs_name_at (x := .bSign) h (congrArg TripleDrive.sign hd) hs)
      (drivenInputs_name_at (x := .bExp) h (congrArg TripleDrive.exp hd) he)
      (drivenInputs_name_at (x := .bMant) h (congrArg TripleDrive.mant hd) hm)

/-! ### A triple port wired to an output triple -/

theorem eq_d_of_buses {port : TriplePort} {o : Outputs} (hs : port.sign = wiresFrom 1 (o.bits .dSign) 0)
    (he : port.exp = wiresFrom 16 (o.bits .dExp) 0) (hm : port.mant = wiresFrom 64 (o.bits .dMant) 0) : port = o.d :=
  triplePort_ext (hs.trans (wiresFrom_setWidth_1 _)) (he.trans (wiresFrom_setWidth_16 _)) (hm.trans (wiresFrom_whole _))

theorem eq_min_of_buses {port : TriplePort} {o : Outputs} (hs : port.sign = wiresFrom 1 (o.bits .minSign) 0)
    (he : port.exp = wiresFrom 16 (o.bits .minExp) 0) (hm : port.mant = wiresFrom 64 (o.bits .minMant) 0) :
    port = o.min :=
  triplePort_ext (hs.trans (wiresFrom_setWidth_1 _)) (he.trans (wiresFrom_setWidth_16 _)) (hm.trans (wiresFrom_whole _))

theorem eq_max_of_buses {port : TriplePort} {o : Outputs} (hs : port.sign = wiresFrom 1 (o.bits .maxSign) 0)
    (he : port.exp = wiresFrom 16 (o.bits .maxExp) 0) (hm : port.mant = wiresFrom 64 (o.bits .maxMant) 0) :
    port = o.max :=
  triplePort_ext (hs.trans (wiresFrom_setWidth_1 _)) (he.trans (wiresFrom_setWidth_16 _)) (hm.trans (wiresFrom_whole _))

/-- DECOMP's outputs close no loop outside DECOMP's own group, since its loops are cut at `f_in`. -/
theorem not_closes_of_decomp_wired {d : Drives} {x : InBus} {p : OutPort} {lo : ℕ} (hx : d.at x = some (.out p lo))
    (hp : p.group = .decomp) (hg : x.group ≠ .decomp) : d.closes x = false := by
  rw [closes_of_wiredFrom (g := .decomp) (by rw [hx, ← hp]; rfl)]
  cases hxg : x.group
  case decomp => exact absurd hxg hg
  case recomp | comparator => rfl

/-- A bus outside DECOMP's group that is wired to one of DECOMP's outputs carries it, loops or not. -/
theorem drivenInputs_decomp_out_at {s : State} {d : Drives} {inp : Inputs} (h : s.drivenInputs d = .ok inp) {x : InBus}
    {p : OutPort} {lo : ℕ} (hg : x.group ≠ .decomp) (hp : p.group = .decomp) (hx : d.at x = some (.out p lo)) :
    inp.at x = wiresFrom x.width ((State.outputs { s with inputs := inp }).bits p) lo :=
  drivenInputs_out_at h (not_closes_of_decomp_wired hx hp hg) hx

theorem drivenInputs_dOut {s : State} {d : Drives} {inp : Inputs} (h : s.drivenInputs d = .ok inp) :
    (d.r = .dOut → inp.r = (State.outputs { s with inputs := inp }).d) ∧
    (d.a = .dOut → inp.a = (State.outputs { s with inputs := inp }).d) ∧
    (d.b = .dOut → inp.b = (State.outputs { s with inputs := inp }).d) := by
  refine ⟨fun hd => ?r, fun hd => ?a, fun hd => ?b⟩
  case r =>
    exact eq_d_of_buses
      (drivenInputs_decomp_out_at (x := .rSign) h (by decide) rfl (congrArg TripleDrive.sign hd))
      (drivenInputs_decomp_out_at (x := .rExp) h (by decide) rfl (congrArg TripleDrive.exp hd))
      (drivenInputs_decomp_out_at (x := .rMant) h (by decide) rfl (congrArg TripleDrive.mant hd))
  case a =>
    exact eq_d_of_buses
      (drivenInputs_decomp_out_at (x := .aSign) h (by decide) rfl (congrArg TripleDrive.sign hd))
      (drivenInputs_decomp_out_at (x := .aExp) h (by decide) rfl (congrArg TripleDrive.exp hd))
      (drivenInputs_decomp_out_at (x := .aMant) h (by decide) rfl (congrArg TripleDrive.mant hd))
  case b =>
    exact eq_d_of_buses
      (drivenInputs_decomp_out_at (x := .bSign) h (by decide) rfl (congrArg TripleDrive.sign hd))
      (drivenInputs_decomp_out_at (x := .bExp) h (by decide) rfl (congrArg TripleDrive.exp hd))
      (drivenInputs_decomp_out_at (x := .bMant) h (by decide) rfl (congrArg TripleDrive.mant hd))

theorem not_closes_of_no_loops {d : Drives} (h : d.loops = false) (x : InBus) : d.closes x = false := by
  simpa using List.any_eq_false.1 h x x.mem_all

/-- The upper wire of a two-wire output, on a one-wire bus (log 17). -/
theorem wiresFrom_upper_of_two (v : BitVec 2) : wiresFrom 1 (v.setWidth 64) 1 = v.extractLsb 1 1 := by
  revert v; decide

/-! ### Where a loop closes -/

/-- A wire at which a loop closes is in one: it joins a group to itself, or wires lead back over one group or two. -/
theorem path_back_of_closesFrom {d : Drives} {g h : PortGroup} (hc : d.closesFrom g h = true) :
    g = h ∨ d.feeds h g = true ∨ ∃ k, d.feeds h k = true ∧ d.feeds k g = true := by
  cases g <;> cases h <;>
    simp only [Drives.closesFrom, Bool.or_eq_true, Bool.and_eq_true, Bool.false_eq_true] at hc
  case decomp.decomp | recomp.recomp | comparator.comparator => exact .inl rfl
  case recomp.decomp =>
    exact hc.elim (fun h₁ => .inr (.inl h₁)) fun h₁ => .inr (.inr ⟨.comparator, h₁.1⟩)
  case comparator.decomp => exact hc.elim (fun h₁ => .inr (.inl h₁)) fun h₁ => .inr (.inr ⟨.recomp, h₁⟩)
  case comparator.recomp => exact .inr (.inl hc)

theorem path_back_of_closes {d : Drives} {x : InBus} (hx : d.closes x = true) :
    ∃ g, wiredFrom (d.at x) = some g ∧
      (g = x.group ∨ d.feeds x.group g = true ∨ ∃ h, d.feeds x.group h = true ∧ d.feeds h g = true) := by
  obtain ⟨g, hg⟩ := wiredFrom_of_closes hx
  exact ⟨g, hg, path_back_of_closesFrom ((closes_of_wiredFrom hg).symm.trans hx)⟩

/-! ### Lines that always drive their ports -/

theorem placedInputs_of_hasSources {s : State} {d : Drives} (h : s.hasSources d = true) :
    ∃ placed, s.placedInputs d = .ok placed :=
  ⟨_, placedInputs_eq_ok.2 ⟨List.all_eq_true.1 h, rfl⟩⟩

theorem drivenInputs_of_literals (s : State) (f : Word) (r a b : TriplePort) :
    s.drivenInputs { fIn := some (.lit f), r := .lit r, a := .lit a, b := .lit b } =
      .ok { fIn := f, r := r, a := a, b := b } :=
  drivenInputs_of_names (by simp [Drives.names, InBus.all, Drives.at, TripleDrive.lit, sourceName])
    fun x => by cases x <;> rfl

/-- A line that reads no name and drives no bus but by wiring places what the ports hold. -/
theorem drivenInputs_of_wires_only {s : State} {d : Drives}
    (h : ∀ x, d.at x = none ∨ ∃ p lo, d.at x = some (.out p lo)) :
    s.drivenInputs d = .ok (s.afterWiring d).inputs := by
  refine drivenInputs_of_placed (s := s) (placed := s.inputs) (placedInputs_eq_ok.2 ⟨fun nm hnm => ?_, ?_⟩)
  · obtain ⟨x, -, hx⟩ := List.mem_filterMap.1 hnm
    rcases h x with hd | ⟨p, lo, hd⟩ <;> rw [hd] at hx <;> cases hx
  · refine inputs_ext fun x => ?_
    rw [at_ofBuses]
    rcases h x with hd | ⟨p, lo, hd⟩ <;> rw [hd] <;> rfl

end Sys2Proof.Machine
end

section
/-! Two loops of wiring (R172): from `f_out` to `f_in` with `d_*` to `r_*`, which is stable for a finite word, and from
`min_*` to `a_*`, which is stable when `a_*` already carries `min_*`. -/

namespace Sys2Proof.Machine

/-! ### The loop through DECOMP and RECOMP -/

/-- The wires of the loop through DECOMP and RECOMP. -/
def roundtripLoop : Drives := { fIn := some (.out .fOut 0), r := .dOut }

theorem roundtripLoop_closes (x : InBus) : roundtripLoop.closes x = decide (x = .fIn) := by
  cases x <;> rfl

/-- One pass brings `d_*` to `r_*`; the loop is cut at `f_in`. -/
theorem passWiring_roundtripLoop (s : State) :
    (s.passWiring roundtripLoop).inputs = { s.inputs with r := s.outputs.d } := by
  refine inputs_ext fun x => ?_
  rw [passWiring_at, roundtripLoop_closes]
  cases x
  case rSign => exact wiresFrom_setWidth_1 _
  case rExp => exact wiresFrom_setWidth_16 _
  case rMant => exact wiresFrom_whole _
  case fIn | aSign | aExp | aMant | bSign | bExp | bMant => rfl

theorem settled_roundtripLoop (s : State) :
    (s.settled roundtripLoop).inputs = { s.inputs with r := s.outputs.d } := by
  have h := passWiring_roundtripLoop s
  have hd : (s.passWiring roundtripLoop).outputs.d = s.outputs.d := outputs_d_congr (by rw [h]) rfl
  rw [State.settled, passWiring_roundtripLoop, hd, h]

/-- RECOMP brings a finite word back, so the loop is stable at it. -/
theorem settled_roundtripLoop_fOut {s : State} (h : isFinite s.inputs.fIn = true) :
    (s.settled roundtripLoop).outputs.fOut = s.inputs.fIn := by
  obtain ⟨d, hd⟩ := exists_decompose_of_isFinite h
  rw [outputs_fOut_eq, settled_roundtripLoop, outputs_d_of_some hd, toDF_tripleOnPort, recompose_of_decompose hd]

theorem drivenInputs_roundtripLoop {s : State} (h : isFinite s.inputs.fIn = true) :
    s.drivenInputs roundtripLoop = .ok { s.inputs with r := s.outputs.d } := by
  have hstable : ∀ g, (s.settled roundtripLoop).groupStable roundtripLoop g = true := fun g =>
    groupStable_iff.2 fun x _ hx => by
      rw [roundtripLoop_closes, decide_eq_true_iff] at hx
      subst hx
      calc carriedBus (s.settled roundtripLoop).outputs _ (roundtripLoop.at .fIn)
        _ = (s.settled roundtripLoop).outputs.fOut := wiresFrom_whole _
        _ = s.inputs.fIn := settled_roundtripLoop_fOut h
        _ = (s.settled roundtripLoop).inputs.fIn := by rw [settled_roundtripLoop]
  rw [drivenInputs_of_wires_only fun x => ?wires, afterWiring_of_stable hstable, settled_roundtripLoop]
  cases x
  case fIn | rSign | rExp | rMant => exact .inr ⟨_, _, rfl⟩
  case aSign | aExp | aMant | bSign | bExp | bMant => exact .inl rfl

/-! ### The loop from the comparator to itself -/

/-- The wires from `min_*` to `a_*`. -/
def minLoop : Drives := { a := .minOut }

theorem minLoop_closes (x : InBus) : minLoop.closes x = decide (x = .aSign ∨ x = .aExp ∨ x = .aMant) := by
  cases x <;> rfl

/-- Settling leaves the ports as they are: a bus of `a_*` closes a loop, and no other is wired. -/
theorem settled_minLoop (s : State) : (s.settled minLoop).inputs = s.inputs := by
  refine inputs_ext fun x => settled_keeps s ?_
  cases x
  case aSign | aExp | aMant => exact .inr rfl
  case fIn | rSign | rExp | rMant | bSign | bExp | bMant => exact .inl rfl

theorem settled_minLoop_min (s : State) : (s.settled minLoop).outputs.min = s.outputs.min := by
  simp only [State.outputs, State.operandA, State.operandB, settled_minLoop]

theorem minLoop_groupStable_iff (s : State) :
    (s.settled minLoop).groupStable minLoop .comparator = true ↔ s.outputs.min = s.inputs.a := by
  rw [groupStable_iff, settled_minLoop]
  constructor
  · intro h
    rw [← settled_minLoop_min s]
    exact triplePort_ext ((wiresFrom_setWidth_1 _).symm.trans (h .aSign rfl rfl))
      ((wiresFrom_setWidth_16 _).symm.trans (h .aExp rfl rfl)) ((wiresFrom_whole _).symm.trans (h .aMant rfl rfl))
  · intro h x _ hx
    rw [← settled_minLoop_min s] at h
    rw [minLoop_closes, decide_eq_true_iff] at hx
    rcases hx with rfl | rfl | rfl
    · exact (wiresFrom_setWidth_1 _).trans (congrArg TriplePort.sign h)
    · exact (wiresFrom_setWidth_16 _).trans (congrArg TriplePort.exp h)
    · exact (wiresFrom_whole _).trans (congrArg TriplePort.mant h)

theorem group_of_minLoop_closes {x : InBus} (hx : minLoop.closes x = true) : x.group = .comparator := by
  rw [minLoop_closes, decide_eq_true_iff] at hx
  rcases hx with rfl | rfl | rfl <;> rfl

theorem drivenInputs_minLoop (s : State) : s.drivenInputs minLoop = .ok (s.afterWiring minLoop).inputs := by
  refine drivenInputs_of_wires_only fun x => ?_
  cases x
  case aSign | aExp | aMant => exact .inr ⟨_, _, rfl⟩
  case fIn | rSign | rExp | rMant | bSign | bExp | bMant => exact .inl rfl

theorem drivenInputs_minLoop_of_stable {s : State} (h : s.outputs.min = s.inputs.a) :
    s.drivenInputs minLoop = .ok s.inputs := by
  have hstable : ∀ g, (s.settled minLoop).groupStable minLoop g = true := fun g => by
    by_cases hg : g = .comparator
    case pos =>
      subst hg
      exact (minLoop_groupStable_iff s).2 h
    case neg => exact groupStable_iff.2 fun x hx hc => absurd (hx.symm.trans (group_of_minLoop_closes hc)) hg
  rw [drivenInputs_minLoop, afterWiring_of_stable hstable, settled_minLoop]

theorem drivenInputs_minLoop_of_unstable {s : State} (h : s.outputs.min ≠ s.inputs.a) :
    s.drivenInputs minLoop = .ok { s.inputs with a := (s.freeInputs minLoop).a } := by
  have hunstable := Bool.eq_false_iff.2 (mt (minLoop_groupStable_iff s).1 h)
  rw [drivenInputs_minLoop, afterWiring_of_unstable hunstable fun x => group_of_minLoop_closes]
  refine congrArg Except.ok (inputs_ext fun x => ?_)
  cases x
  case aSign | aExp | aMant => exact releaseGroup_of_closes _ _ _ rfl
  case fIn | rSign | rExp | rMant | bSign | bExp | bMant =>
    rw [releaseGroup_of_not_wired _ _ _ rfl, settled_minLoop]
    rfl

/-! ### The statement -/

/-- Settles O7, from the one-bus rules, the triple ports, where loops close, and the two loops of R172. -/
theorem drivesReachThePorts : Obligations.DrivesReachThePorts := by
  refine ⟨fun s d placed inp hp h => ?ports, fun d x => path_back_of_closes, drivenInputs_of_literals,
    fun s d hsrc => ?driven, fun s => drivenInputs_roundtripLoop, fun s => drivenInputs_minLoop_of_stable,
    fun s => drivenInputs_minLoop_of_unstable⟩
  case ports =>
    obtain ⟨hr, ha, hb⟩ := drivenInputs_dOut h
    refine ⟨fun x => ⟨drivenInputs_held_at h, fun v => drivenInputs_lit_at h, fun y lo v => drivenInputs_name_at h,
        fun p lo => drivenInputs_of_port_wired hp h⟩,
      fun n t => drivenInputs_named h, hr, ha, hb, fun hl => ?noLoops⟩
    case noLoops =>
      have hout : ∀ (x : InBus) {p : OutPort} {lo : ℕ}, d.at x = some (.out p lo) →
          inp.at x = wiresFrom x.width ((State.outputs { s with inputs := inp }).bits p) lo := fun x _ _ =>
        drivenInputs_out_at h (not_closes_of_no_loops hl x)
      exact ⟨fun hd => (hout .fIn hd).trans (wiresFrom_whole _), fun hd => (hout .fIn hd).trans (wiresFrom_whole _),
        fun hd => eq_min_of_buses (hout .rSign (congrArg TripleDrive.sign hd))
          (hout .rExp (congrArg TripleDrive.exp hd)) (hout .rMant (congrArg TripleDrive.mant hd)),
        fun hd => eq_max_of_buses (hout .rSign (congrArg TripleDrive.sign hd))
          (hout .rExp (congrArg TripleDrive.exp hd)) (hout .rMant (congrArg TripleDrive.mant hd)),
        fun hd => (hout .rSign hd).trans (wiresFrom_setWidth_1 _),
        fun hd => (hout .rSign hd).trans (wiresFrom_setWidth_1 _),
        fun hd => (hout .rSign hd).trans (wiresFrom_upper_of_two _),
        fun hd => (hout .aSign hd).trans (wiresFrom_setWidth_1 _),
        fun hd => (hout .aMant hd).trans (wiresFrom_whole _), fun hd => (hout .bExp hd).trans (wiresFrom_setWidth_16 _)⟩
  case driven =>
    obtain ⟨placed, hp⟩ := placedInputs_of_hasSources hsrc
    exact ⟨placed, _, hp, drivenInputs_of_placed hp⟩

end Sys2Proof.Machine
end

section
/-! Running one line: an operation line as its ports, its answer and the name that takes it, and the refusals of lines
that have no result (R69; log 11, log 15). -/

namespace Sys2Proof.Machine

/-! ### Naming a result -/

theorem nameResult_of_assigned {s : State} {n : ℕ} {r : Result} (h : s.wires.has (r.name n) = true) :
    s.nameResult n r = .refused (.assignedTwice n) := by
  have hnone : s.wires.assignResult n r = none := by
    cases hws : s.wires.assignResult n r with
    | none => rfl
    | some ws =>
      exact absurd (((assignResult_isSome_iff s.wires n r).1 ⟨ws, hws⟩).symm.trans h) Bool.false_ne_true
  simp only [State.nameResult, hnone]

theorem nameResult_of_assignResult {s : State} {n : ℕ} {r : Result} {ws : Wires}
    (h : s.wires.assignResult n r = some ws) : s.nameResult n r = .next { s with wires := ws } := by
  simp only [State.nameResult, h]

/-- The name of an operation's format is the name its answer takes. -/
theorem freeFor_eq_not_has (ws : Wires) (inp : Inputs) (i : Instr) (n : ℕ) :
    ws.freeFor i.format n = !ws.has ((inp.answer i).name n) := by
  cases i <;> exact (Option.not_isSome _).symm

theorem exists_assignResult_of_freeFor {ws : Wires} {i : Instr} {n : ℕ} (inp : Inputs)
    (h : ws.freeFor i.format n = true) : ∃ ws', ws.assignResult n (inp.answer i) = some ws' := by
  rw [assignResult_isSome_iff]
  rw [freeFor_eq_not_has ws inp] at h
  simpa using h

/-! ### Running an operation line -/

theorem runLine_operation {op : Byte} {i : Instr} (s : State) (d : Drives) (dest : Option ℕ)
    (hd : decode [op] = .ok i []) : runLine (.operation op d dest) s = s.apply i d dest := by
  simp only [runLine, hd]

theorem apply_of_drivenInputs {s : State} {d : Drives} {inp : Inputs} (i : Instr) (dest : Option ℕ)
    (h : s.drivenInputs d = .ok inp) :
    s.apply i d dest =
      (State.report { s with inputs := inp } (inp.answer i)).nameLast dest := by
  simp only [State.apply, h, exec_eq_report_answer, nameAfter]

theorem apply_of_placedInputs_error {s : State} {d : Drives} {e : Refusal} (i : Instr) (dest : Option ℕ)
    (h : s.placedInputs d = .error e) : s.apply i d dest = .refused e := by
  simp only [State.apply, State.drivenInputs, h]

theorem nameLast_none (s : State) : s.nameLast none = .next s := by
  unfold State.nameLast
  cases s.result <;> rfl

/-! ### Which line runs (log 15) -/

theorem firstToRun_eq_none {ws : Wires} {pending : List Line} : ∀ {lines passed : List Line},
    (∀ (k : ℕ) (m : Line), lines[k]? = some m → m.mayRun ws pending (passed ++ lines.take k) = false) →
    firstToRun ws pending passed lines = none
  | [], _, _ => rfl
  | l :: rest, passed, h => by
    have hl : l.mayRun ws pending passed = false := by simpa using h 0 l rfl
    have ih := firstToRun_eq_none (lines := rest) (passed := passed ++ [l]) fun k m hm => by
      simpa using h (k + 1) m (by simpa using hm)
    simp [firstToRun, hl, ih]

theorem step_of_none_mayRun {s : State} (hne : s.pending ≠ [])
    (h : ∀ (k : ℕ) (m : Line), s.pending[k]? = some m → m.mayRun s.wires s.pending (s.pending.take k) = false) :
    step s = .refused .linesAwaitEachOther := by
  have hnext : s.nextLine = none := firstToRun_eq_none (passed := []) (by simpa using h)
  unfold step
  split
  · next he => exact absurd he hne
  · rw [hnext]

/-! ### Stepping (O5) and completion (O55) -/

theorem decode_of_decodeTableWord {nbits w : ℕ} {i : Instr} (h : decodeTableWord nbits w = some i) :
    decode [tableByte w] = .ok i [] := by
  unfold decodeTableWord tableBytes at h
  split at h
  case h_1 j rest hj =>
    obtain ⟨-, rfl⟩ := eq_opByte_of_decodeOp hj
    rw [hj, Option.some.inj h]
  all_goals cases h

theorem drivenInputs_nothing (s : State) : s.drivenInputs {} = .ok s.inputs :=
  drivenInputs_of_names (by simp [Drives.names, InBus.all, Drives.at, sourceName]) fun x => by cases x <;> rfl

/-- A line placed on the port values as they stand drives nothing and names nothing, so its operation runs as it is. -/
theorem step_withFetchWord {nbits w : ℕ} {i : Instr} (s : State) (h : decodeTableWord nbits w = some i) :
    step (s.withFetchWord nbits w) = exec i s := by
  rw [step_operation (s.withFetchWord_pending nbits w) (decode_of_decodeTableWord h) (drivenInputs_nothing _),
    exec_eq_report_answer, exec_eq_report_answer]
  exact nameLast_none _

/-- Settles O5, from the operation line, the line that drives and names nothing, and the first line that may run. -/
theorem stepRunsTheDecodedOperation : Obligations.StepRunsTheDecodedOperation :=
  ⟨fun _ _ _ _ _ _ _ hp hd hin => step_operation hp hd hin, fun s _ _ _ h => step_withFetchWord s h,
    fun _ _ _ _ hp hb hl => step_of_mayRun hp hl hb⟩

/-- An operation whose ports are driven and whose name is free leaves the ports driven, its answer read and named, and
the pending lines as they are. -/
theorem apply_completes {s : State} {i : Instr} {d : Drives} {dest : Option ℕ} {inp : Inputs}
    (hin : s.drivenInputs d = .ok inp) (hfree : ∀ n, dest = some n → s.wires.freeFor i.format n = true) :
    ∃ ws, s.apply i d dest =
        .next { inputs := inp, result := some (inp.answer i), wires := ws, pending := s.pending,
                draws := s.draws + 1 } ∧
      (dest = none → ws = s.wires) ∧ ∀ n, dest = some n → s.wires.assignResult n (inp.answer i) = some ws := by
  rw [apply_of_drivenInputs i dest hin]
  cases dest with
  | none => exact ⟨s.wires, nameLast_none _, fun _ => rfl, fun _ h => nomatch h⟩
  | some n =>
    obtain ⟨ws, hws⟩ := exists_assignResult_of_freeFor inp (hfree n rfl)
    have hname := nameResult_of_assignResult (s := State.report { s with inputs := inp } (inp.answer i)) hws
    refine ⟨ws, hname, (fun h => nomatch h), fun m hm => ?_⟩
    rwa [← Option.some.inj hm]

/-- Settles O55: the sources are there, so the ports are driven, and the name is free for what the operation reports. -/
theorem presentedOperationCompletes : Obligations.PresentedOperationCompletes := by
  intro s op d dest before after i hp hb hl hd hsrc hfree
  obtain ⟨placed, hplaced⟩ := placedInputs_of_hasSources hsrc
  obtain ⟨inp, hin⟩ : ∃ inp, s.drivenInputs d = .ok inp := ⟨_, drivenInputs_of_placed hplaced⟩
  obtain ⟨ws, hrun, hnone, hsome⟩ := apply_completes (s := { s with pending := before ++ after })
    ((drivenInputs_pending s d _).trans hin) hfree
  have hstep := (step_of_mayRun hp hl hb).trans ((runLine_operation _ d dest hd).trans hrun)
  refine ⟨inp, _, hin, hstep, rfl, rfl, (resultAfter_exec i { s with inputs := inp }).symm, hnone,
    fun n r hn hr => ?named⟩
  case named => rw [← Option.some.inj hr]; exact hsome n hn

end Sys2Proof.Machine
end

section
/-! UNWRAP, the naming of a literal word, and every refusal of a line (R69; log 10, log 11, log 15). -/

namespace Sys2Proof.Machine

theorem step_unwrap_unassigned {s : State} {dest src : ℕ} {rest : List Line}
    (hp : s.pending = .unwrap dest src :: rest) (hs : s.wires.o.lookup src = none)
    (hno : ∀ m ∈ s.pending, m.assigns ≠ some (.o src)) : step s = .refused (.unassignedOption src) := by
  rw [step_of_pending hp (waits_unwrap dest (.inr hno))]
  simp only [runLine, State.unwrap, hs]

theorem step_unwrap_assigned {s : State} {dest src : ℕ} {rest : List Line} {d v : DF}
    (hp : s.pending = .unwrap dest src :: rest) (hs : s.wires.o.lookup src = some (some d))
    (ht : s.wires.t.lookup dest = some v) : step s = .refused (.assignedTwice dest) := by
  rw [step_of_pending hp (waits_unwrap dest (.inl (by rw [hs]; rfl)))]
  simp only [runLine, State.unwrap, hs]
  exact nameResult_of_assigned (by simp [Result.name, Wires.has, ht])

theorem step_nameWord_free {s : State} {dest : ℕ} {w : Word} {rest : List Line}
    (hp : s.pending = .nameWord dest w :: rest) (hf : s.wires.f.lookup dest = none) :
    step s = .next { s with pending := rest, wires := { s.wires with f := (dest, w) :: s.wires.f } } :=
  (step_nameWord hp).trans (nameResult_of_assignResult (assignResult_word w hf))

theorem step_nameWord_assigned {s : State} {dest : ℕ} {w v : Word} {rest : List Line}
    (hp : s.pending = .nameWord dest w :: rest) (hf : s.wires.f.lookup dest = some v) :
    step s = .refused (.assignedTwice dest) :=
  (step_nameWord hp).trans (nameResult_of_assigned (by simp [Result.name, Wires.has, hf]))

/-! ### Operation lines -/

/-- An operation line that waits for nothing and cannot place its ports is refused for the name that is missing. -/
theorem step_operation_of_placedInputs_error {s : State} {op : Byte} {d : Drives} {dest : Option ℕ} {rest : List Line}
    {i : Instr} {e : Refusal} (hp : s.pending = .operation op d dest :: rest) (hd : decode [op] = .ok i [])
    (hw : (Line.operation op d dest).waits s.wires s.pending = false) (he : s.placedInputs d = .error e) :
    step s = .refused e := by
  rw [step_of_pending hp hw, runLine_operation _ d dest hd]
  exact apply_of_placedInputs_error i dest he

/-- `f_in` is the first port, so the name it reads is the first that is missed. -/
theorem placedInputs_of_fIn_unassigned {s : State} {d : Drives} {n lo : ℕ} (hf : d.fIn = some (.name (.f n) lo))
    (hn : s.wires.f.lookup n = none) : s.placedInputs d = .error (.unassignedWord n) := by
  have hhas : s.wires.has (.f n) = false := by simp [Wires.has, hn]
  have hfind : d.names.find? (fun nm => !s.wires.has nm) = some (.f n) := by
    have hsrc : sourceName (d.at .fIn) = some (.f n) := by rw [Drives.at, hf]; rfl
    rw [Drives.names, InBus.all, List.filterMap_cons_some (f := fun x => sourceName (d.at x)) hsrc,
      List.find?_cons_of_pos (by rw [hhas]; rfl)]
  simp only [State.placedInputs, hfind]
  rfl

theorem exists_source_of_mem_names {d : Drives} {nm : Name} (h : nm ∈ d.names) :
    ∃ (x : InBus) (y : NamePart) (lo : ℕ), d.at x = some (.name y lo) ∧ y.name = nm := by
  obtain ⟨x, -, hx⟩ := List.mem_filterMap.1 h
  rcases hsrc : d.at x with _ | _ | ⟨y, lo⟩ | _ <;> rw [hsrc] at hx <;> cases hx
  exact ⟨x, y, lo, hsrc, rfl⟩

theorem step_operation_unassigned {s : State} {op : Byte} {d : Drives} {dest : Option ℕ} {rest : List Line} {i : Instr}
    {x : InBus} {y : NamePart} {lo : ℕ} (hp : s.pending = .operation op d dest :: rest) (hd : decode [op] = .ok i [])
    (hw : (Line.operation op d dest).waits s.wires s.pending = false) (hx : d.at x = some (.name y lo))
    (hy : s.wires.has y.name = false) :
    ∃ (x' : InBus) (y' : NamePart) (lo' : ℕ), d.at x' = some (.name y' lo') ∧ s.wires.has y'.name = false ∧
      step s = .refused y'.name.unassigned := by
  have hmem : y.name ∈ d.names := mem_names (x := x) (by rw [hx]; rfl)
  obtain ⟨nm, hnm, hhas, he⟩ := placedInputs_of_unassigned hmem hy
  obtain ⟨x', y', lo', hx', rfl⟩ := exists_source_of_mem_names hnm
  exact ⟨x', y', lo', hx', hhas, step_operation_of_placedInputs_error hp hd hw he⟩

theorem step_operation_assigned {s : State} {op : Byte} {d : Drives} {n : ℕ} {rest : List Line} {i : Instr}
    {inp : Inputs} (hp : s.pending = .operation op d (some n) :: rest) (hd : decode [op] = .ok i [])
    (hin : s.drivenInputs d = .ok inp) (hfree : s.wires.freeFor i.format n = false) :
    step s = .refused (.assignedTwice n) := by
  rw [step_operation hp hd hin, exec_eq_report_answer]
  refine nameResult_of_assigned (r := inp.answer i) ?_
  rw [freeFor_eq_not_has _ inp] at hfree
  simpa using hfree

/-- Settles O6, clause by clause: UNWRAP, the naming of a word, the operation lines, and lines that all wait. -/
theorem unwrapAndNamingLines : Obligations.UnwrapAndNamingLines :=
  ⟨fun _ _ _ _ _ hp hs ht => step_unwrap hp hs ht, fun _ _ _ _ hp hs => step_unwrap_absent hp hs,
    fun _ _ _ _ hp hs hno => step_unwrap_unassigned hp hs hno,
    fun _ _ _ _ _ _ hp hs ht => step_unwrap_assigned hp hs ht,
    fun _ _ _ _ hp hf => step_nameWord_free hp hf, fun _ _ _ _ _ hp hf => step_nameWord_assigned hp hf,
    fun _ _ _ _ _ _ _ _ hp hd hw hf hn =>
      step_operation_of_placedInputs_error hp hd hw (placedInputs_of_fIn_unassigned hf hn),
    fun _ _ _ _ _ _ _ _ _ hp hd hw hx hy => step_operation_unassigned hp hd hw hx hy,
    fun _ _ _ _ _ _ _ hp hd hin hfree => step_operation_assigned hp hd hin hfree,
    fun _ hne h => step_of_none_mayRun hne h⟩

end Sys2Proof.Machine
end

section
/-! The pseudo-operations ROUNDTRIP, CMPF and CSWAP (R70), run line by line: one lemma for each kind of line, and what
the names hold after it. -/

namespace Sys2Proof.Machine

/-! ### The lines -/

/-- `o<o> = DECOMP f<f>`. -/
theorem step_lineDecomp {s : State} {o f : ℕ} {w : Word} {rest : List Line} (hp : s.pending = lineDecomp o f :: rest)
    (hf : s.wires.f.lookup f = some w) (ho : s.wires.o.lookup o = none) :
    step s = .next
      { inputs := { s.inputs with fIn := w }
        result := some (.optTriple (decompose w))
        wires := { s.wires with o := (o, decompose w) :: s.wires.o }
        pending := rest
        draws := s.draws + 1 } :=
  step_operation_named hp (decode_opByte .decomp []) (drivenInputs_fIn_wire hf) (exec_eq_report_answer _ _)
    (assignResult_optTriple _ ho)

/-- `f<f> = RECOMP t<t>`. -/
theorem step_lineRecomp {s : State} {f t : ℕ} {d : DF} {rest : List Line} (hp : s.pending = lineRecomp f t :: rest)
    (ht : s.wires.t.lookup t = some d) (hf : s.wires.f.lookup f = none) :
    step s = .next
      { inputs := { s.inputs with r := tripleOnPort d }
        result := some (.word (recompose d))
        wires := { s.wires with f := (f, recompose d) :: s.wires.f }
        pending := rest
        draws := s.draws + 1 } := by
  have hanswer : Inputs.answer { s.inputs with r := tripleOnPort d } .recomp = .word (recompose d) := by
    simp only [Inputs.answer, toDF_tripleOnPort]
  refine step_operation_named hp (decode_opByte .recomp []) (drivenInputs_r_wire ht) ?_ (assignResult_word _ hf)
  rw [exec_eq_report_answer, hanswer]

/-- A comparator operation on `t<x>` and `t<y>`. -/
theorem step_lineCompare {s : State} {i : Instr} {dest x y : ℕ} {a b : DF} {r : Result} {ws : Wires} {rest : List Line}
    (hp : s.pending = lineCompare i.opByte dest x y :: rest) (ha : s.wires.t.lookup x = some a)
    (hb : s.wires.t.lookup y = some b)
    (hr : Inputs.answer { s.inputs with a := tripleOnPort a, b := tripleOnPort b } i = r)
    (hw : s.wires.assignResult dest r = some ws) :
    step s = .next
      { inputs := { s.inputs with a := tripleOnPort a, b := tripleOnPort b }
        result := some r
        wires := ws
        pending := rest
        draws := s.draws + 1 } := by
  refine step_operation_named hp (decode_opByte i []) (drivenInputs_ab_wires ha hb) ?_ hw
  rw [exec_eq_report_answer, hr]

/-! ### Two triples driven onto `a_*` and `b_*` -/

theorem answer_cmp_of_operands (inp : Inputs) (a b : DF) :
    Inputs.answer { inp with a := tripleOnPort a, b := tripleOnPort b } .cmp = .order (compareDF a b) := by
  simp only [Inputs.answer, toDF_tripleOnPort]

theorem answer_min_of_operands (inp : Inputs) (a b : DF) :
    Inputs.answer { inp with a := tripleOnPort a, b := tripleOnPort b } .min = .triple (minDF a b) := by
  simp only [Inputs.answer, toDF_tripleOnPort]

theorem answer_max_of_operands (inp : Inputs) (a b : DF) :
    Inputs.answer { inp with a := tripleOnPort a, b := tripleOnPort b } .max = .triple (maxDF a b) := by
  simp only [Inputs.answer, toDF_tripleOnPort]

/-! ### Names that stay -/

/-- A name that has a value keeps it when a free one is assigned. -/
theorem lookup_cons_of_some {α : Type} {l : List (ℕ × α)} {m n : ℕ} {u v : α} (hm : l.lookup m = some v)
    (hn : l.lookup n = none) : ((n, u) :: l).lookup m = some v := by
  rw [lookup_cons_of_ne _ _ ?_, hm]
  rintro rfl
  cases hm.symm.trans hn

/-! ### ROUNDTRIP -/

theorem decompose_eq_none_of_not_finite {w : Word} (h : isFinite w = false) : decompose w = none := by
  rw [decompose_eq_none_iff]
  by_contra hne
  exact Bool.false_ne_true (h.symm.trans ((isFinite_iff w).2 hne))

/-- The three lines of ROUNDTRIP, one after the other. -/
theorem linesRoundtrip_run {s : State} {f2 f1 o t : ℕ} {w : Word} {rest : List Line}
    (hp : s.pending = linesRoundtrip f2 f1 o t ++ rest) (hw : s.wires.f.lookup f1 = some w)
    (hfin : isFinite w = true) (hf2 : s.wires.f.lookup f2 = none) (ho : s.wires.o.lookup o = none)
    (ht : s.wires.t.lookup t = none) :
    ∃ s₁ s₂ s₃, step s = .next s₁ ∧ step s₁ = .next s₂ ∧ step s₂ = .next s₃ ∧
      s₃.wires.f.lookup f2 = some w ∧ s₃.pending = rest := by
  obtain ⟨d, hd⟩ := exists_decompose_of_isFinite hfin
  refine ⟨_, _, _, step_lineDecomp hp hw ho, step_unwrap (d := d) rfl ?present ht,
    step_lineRecomp rfl List.lookup_cons_self hf2, ?word, rfl⟩
  case present => rw [List.lookup_cons_self, hd]
  case word => rw [List.lookup_cons_self, recompose_of_decompose hd]

/-- The one line that wires `d_*` to `r_*`. -/
def roundtripDrives (f1 : ℕ) : Drives := { fIn := some (.name (.f f1) 0), r := .dOut }

theorem drivenInputs_roundtripDrives {s : State} {f1 : ℕ} {w : Word} {d : DF} (hw : s.wires.f.lookup f1 = some w)
    (hd : decompose w = some d) :
    ∃ inp, s.drivenInputs (roundtripDrives f1) = .ok inp ∧ inp.answer .recomp = .word w := by
  have hnames : ∀ nm ∈ (roundtripDrives f1).names, s.wires.has nm = true := by
    simp [Drives.names, InBus.all, Drives.at, roundtripDrives, TripleDrive.dOut, sourceName, NamePart.name, Wires.has,
      hw]
  obtain ⟨inp, hin⟩ : ∃ inp, s.drivenInputs (roundtripDrives f1) = .ok inp :=
    ⟨_, drivenInputs_of_placed (placedInputs_eq_ok.2 ⟨hnames, rfl⟩)⟩
  have hf : inp.fIn = w :=
    (drivenInputs_name_at (x := .fIn) hin rfl (show s.wires.bits (.f f1) = some w from hw)).trans (wiresFrom_whole w)
  have hr : inp.r = tripleOnPort d :=
    ((drivenInputs_dOut hin).1 rfl).trans (outputs_d_of_some (s := { s with inputs := inp }) (by rw [hf, hd]))
  refine ⟨inp, hin, ?_⟩
  rw [Inputs.answer, hr, toDF_tripleOnPort, recompose_of_decompose hd]

theorem lineRoundtrip_run {s : State} {f2 f1 : ℕ} {w : Word} {rest : List Line}
    (hp : s.pending = .operation 0x1#8 (roundtripDrives f1) (some f2) :: rest)
    (hw : s.wires.f.lookup f1 = some w) (hfin : isFinite w = true) (hf2 : s.wires.f.lookup f2 = none) :
    ∃ s₁, step s = .next s₁ ∧ s₁.wires.f.lookup f2 = some w ∧ s₁.pending = rest := by
  obtain ⟨d, hd⟩ := exists_decompose_of_isFinite hfin
  obtain ⟨inp, hin, hanswer⟩ := drivenInputs_roundtripDrives hw hd
  refine ⟨_, step_operation_named hp (decode_opByte .recomp []) hin ?exec (assignResult_word w hf2),
    List.lookup_cons_self, rfl⟩
  case exec => rw [exec_eq_report_answer, hanswer]

/-- Settles O49, from the three lines and from the one that wires `d_*` to `r_*` directly. -/
theorem roundtripLinesGiveTheWordBack : Obligations.RoundtripLinesGiveTheWordBack :=
  ⟨fun _ _ _ _ _ _ _ hp hw hfin hf2 ho ht => linesRoundtrip_run hp hw hfin hf2 ho ht,
    fun _ _ _ _ _ hp hw hfin hf2 => lineRoundtrip_run hp hw hfin hf2⟩

/-- Settles O50: DECOMP names the absent result, and UNWRAP of that name is refused. -/
theorem roundtripLinesStopOnRejectedWord : Obligations.RoundtripLinesStopOnRejectedWord := by
  intro s f2 f1 o t w rest hp hw hfin ho
  have hnone := decompose_eq_none_of_not_finite hfin
  refine ⟨_, step_lineDecomp hp hw ho, ?result, ?dValid, step_unwrap_absent rfl ?absent⟩
  case result => rw [hnone]
  case dValid => simp only [State.outputs, State.operandW, hnone]; rfl
  case absent => rw [List.lookup_cons_self, hnone]

/-! ### CSWAP -/

/-- Settles O51: MIN and MAX of the two triples are ordered and rearrange them. -/
theorem cswapLinesOrderTwoTriples : Obligations.CswapLinesOrderTwoTriples := by
  intro s tl th t1 t2 a b rest hp ha hb htl hth hne
  have hth' : ((tl, minDF a b) :: s.wires.t).lookup th = none := (lookup_cons_of_ne _ _ hne.symm).trans hth
  exact ⟨_, _, minDF a b, maxDF a b,
    step_lineCompare (i := .min) hp ha hb (answer_min_of_operands _ a b) (assignResult_triple _ htl),
    step_lineCompare (i := .max) rfl (lookup_cons_of_some ha htl) (lookup_cons_of_some hb htl)
      (answer_max_of_operands _ a b) (assignResult_triple _ hth'),
    lookup_cons_of_some List.lookup_cons_self hth', List.lookup_cons_self, rfl, minDF_le_maxDF a b,
    minDF_maxDF_perm a b⟩

/-! ### CMPF -/

theorem compareWords_of_some {v w : Word} {a b : DF} (hv : decompose v = some a) (hw : decompose w = some b) :
    compareWords v w = some (compareDF a b) := by
  simp only [compareWords, hv, hw]

theorem compareWords_of_none {v w : Word} (h : decompose v = none ∨ decompose w = none) : compareWords v w = none := by
  rcases h with hv | hw
  · simp only [compareWords, hv]
  · cases hv : decompose v <;> simp only [compareWords, hv, hw]

theorem runSteps_of_next {s t : State} (n : ℕ) (h : step s = .next t) : runSteps (n + 1) s = runSteps n t := by
  simp only [runSteps, h]

theorem runSteps_of_refused {s : State} {e : Refusal} (n : ℕ) (h : step s = .refused e) :
    runSteps (n + 1) s = .refused e := by
  simp only [runSteps, h]

/-- The two DECOMP lines of CMPF leave its two UNWRAP lines pending, with both optional triples named. -/
theorem linesCompareWords_decomps {s : State} {c f1 f2 o1 o2 t1 t2 : ℕ} {v w : Word} {rest : List Line}
    (hp : s.pending = linesCompareWords c f1 f2 o1 o2 t1 t2 ++ rest) (hv : s.wires.f.lookup f1 = some v)
    (hw : s.wires.f.lookup f2 = some w) (ho1 : s.wires.o.lookup o1 = none) (ho2 : s.wires.o.lookup o2 = none)
    (hne : o1 ≠ o2) :
    ∃ s₂, (∀ n, runSteps (n + 2) s = runSteps n s₂) ∧
      s₂.pending = .unwrap t1 o1 :: .unwrap t2 o2 :: lineCompare 0x2#8 c t1 t2 :: rest ∧
      s₂.wires.o.lookup o1 = some (decompose v) ∧ s₂.wires.o.lookup o2 = some (decompose w) ∧
      s₂.wires.t = s.wires.t ∧ s₂.wires.c = s.wires.c := by
  have ho2' : ((o1, decompose v) :: s.wires.o).lookup o2 = none := (lookup_cons_of_ne _ _ hne.symm).trans ho2
  refine ⟨_, fun n => (runSteps_of_next (n + 1) (step_lineDecomp hp hv ho1)).trans
    (runSteps_of_next n (step_lineDecomp rfl hw ho2')), rfl, ?_, List.lookup_cons_self, rfl, rfl⟩
  exact lookup_cons_of_some List.lookup_cons_self ho2'

/-- An UNWRAP line whose optional triple is present. -/
theorem runSteps_unwrap {s : State} {dest src : ℕ} {rest : List Line} {d : DF} (n : ℕ)
    (hp : s.pending = .unwrap dest src :: rest) (hs : s.wires.o.lookup src = some (some d))
    (ht : s.wires.t.lookup dest = none) : runSteps (n + 1) s =
      runSteps n { s with pending := rest, wires := { s.wires with t := (dest, d) :: s.wires.t } } :=
  runSteps_of_next n (step_unwrap hp hs ht)

/-- The last three lines of CMPF, both optional triples being present. -/
theorem linesCompareWords_compare {s : State} {c o1 o2 t1 t2 : ℕ} {a b : DF} {rest : List Line}
    (hp : s.pending = .unwrap t1 o1 :: .unwrap t2 o2 :: lineCompare 0x2#8 c t1 t2 :: rest)
    (ho1 : s.wires.o.lookup o1 = some (some a)) (ho2 : s.wires.o.lookup o2 = some (some b))
    (ht1 : s.wires.t.lookup t1 = none) (ht2 : s.wires.t.lookup t2 = none) (hne : t1 ≠ t2)
    (hc : s.wires.c.lookup c = none) :
    ∃ t, runSteps 3 s = .next t ∧ t.wires.c.lookup c = some (compareDF a b) ∧ t.pending = rest := by
  have ht2' : ((t1, a) :: s.wires.t).lookup t2 = none := (lookup_cons_of_ne _ _ hne.symm).trans ht2
  exact ⟨_,
    calc runSteps 3 s
      _ = runSteps 2 _ := runSteps_unwrap 2 hp ho1 ht1
      _ = runSteps 1 _ := runSteps_unwrap 1 rfl ho2 ht2'
      _ = .next _ := runSteps_of_next 0 (step_lineCompare (i := .cmp) rfl
        (lookup_cons_of_some List.lookup_cons_self ht2') List.lookup_cons_self (answer_cmp_of_operands _ a b)
        (assignResult_order _ hc)),
    List.lookup_cons_self, rfl⟩

/-- Settles O48, from CMPF as a function, and its lines: two DECOMPs, an UNWRAP of each, and CMP. -/
theorem cmpfHasNoResultOnRejectedWords : Obligations.CmpfHasNoResultOnRejectedWords := by
  refine ⟨fun v w => ⟨compareWords_of_none, fun a b => compareWords_of_some, fun hv hw => ?finite⟩,
    fun s c f1 f2 o1 o2 t1 t2 v w rest hp hv hw ho1 ho2 hne ht1 ht2 htne hc => ?lines⟩
  case finite =>
    obtain ⟨a, ha⟩ := exists_decompose_of_isFinite hv
    obtain ⟨b, hb⟩ := exists_decompose_of_isFinite hw
    exact ⟨_, compareWords_of_some ha hb⟩
  case lines =>
    obtain ⟨s₂, hrun, hp₂, hl₁, hl₂, hst, hsc⟩ := linesCompareWords_decomps hp hv hw ho1 ho2 hne
    rw [← hst] at ht1 ht2
    rw [← hsc] at hc
    refine ⟨fun fv fw => ?both, fun fv => ?firstRejected, fun fv fw => ?secondRejected⟩
    case both =>
      obtain ⟨a, ha⟩ := exists_decompose_of_isFinite fv
      obtain ⟨b, hb⟩ := exists_decompose_of_isFinite fw
      obtain ⟨t, ht, hct, hpt⟩ :=
        linesCompareWords_compare hp₂ (hl₁.trans (congrArg some ha)) (hl₂.trans (congrArg some hb)) ht1 ht2 htne hc
      exact ⟨t, compareDF a b, (hrun 3).trans ht, compareWords_of_some ha hb, hct, hpt⟩
    case firstRejected =>
      have hnone := hl₁.trans (congrArg some (decompose_eq_none_of_not_finite fv))
      exact (hrun 1).trans (runSteps_of_refused 0 (step_unwrap_absent hp₂ hnone))
    case secondRejected =>
      obtain ⟨a, ha⟩ := exists_decompose_of_isFinite fv
      have hnone := hl₂.trans (congrArg some (decompose_eq_none_of_not_finite fw))
      calc runSteps 4 s
        _ = runSteps 2 s₂ := hrun 2
        _ = runSteps 1 _ := runSteps_unwrap 1 hp₂ (hl₁.trans (congrArg some ha)) ht1
        _ = .refused (.unwrapAbsent o2) := runSteps_of_refused 0 (step_unwrap_absent rfl hnone)

end Sys2Proof.Machine
end

section
/-! No operation changes what another answers (R137), and the order in which two lines are listed changes no name's
value (R69): two lines of literal and named operands give their names the same values in either order. -/

namespace Sys2Proof.Machine

/-! ### Giving a name its value -/

/-- The name that takes what a line gives. -/
def nameGiven (g : Option (ℕ × Result)) : Option Name := g.map fun x => x.2.name x.1

theorem agreeAt_symm {ws ws' : Wires} {nm : Name} (h : ws.agreeAt ws' nm) : ws'.agreeAt ws nm := by
  cases nm <;> exact Eq.symm h

theorem agreeAt_trans {ws ws' ws'' : Wires} {nm : Name} (h : ws.agreeAt ws' nm) (h' : ws'.agreeAt ws'' nm) :
    ws.agreeAt ws'' nm := by
  cases nm <;> exact Eq.trans h h'

theorem agreeAt_refl (ws : Wires) (nm : Name) : ws.agreeAt ws nm := by
  cases nm <;> rfl

theorem sameNames_of_agreeAt {ws ws' : Wires} (h : ∀ nm, ws.agreeAt ws' nm) : ws.sameNames ws' := fun n =>
  ⟨h (.f n), h (.o n), h (.t n), h (.c n), h (.p n)⟩

theorem given_agreeAt {ws ws' : Wires} {g : Option (ℕ × Result)} (h : ws.given ws' g) {nm : Name}
    (hne : nameGiven g ≠ some nm) : ws'.agreeAt ws nm := by
  cases g with
  | none =>
    obtain rfl : ws' = ws := h
    exact agreeAt_refl _ nm
  | some x => exact assignResult_agreeAt h fun he => hne (congrArg some he.symm)

theorem given_agreeAt_both {ws₁ ws₁' ws₂ ws₂' : Wires} {g : Option (ℕ × Result)} (h₁ : ws₁.given ws₁' g)
    (h₂ : ws₂.given ws₂' g) {nm : Name} (h : ws₁.agreeAt ws₂ nm) : ws₁'.agreeAt ws₂' nm := by
  cases g with
  | none =>
    obtain rfl : ws₁' = ws₁ := h₁
    obtain rfl : ws₂' = ws₂ := h₂
    exact h
  | some x => exact assignResult_agreeAt_both h₁ h₂ h

theorem given_has {ws ws' : Wires} {g : Option (ℕ × Result)} (h : ws.given ws' g) {nm : Name}
    (hn : nameGiven g = some nm) : ws'.has nm = true := by
  cases g with
  | none => cases hn
  | some x =>
    obtain rfl := Option.some.inj hn
    exact assignResult_has h

theorem exists_given_iff {ws : Wires} {g : Option (ℕ × Result)} :
    (∃ ws', ws.given ws' g) ↔ ∀ nm, nameGiven g = some nm → ws.has nm = false := by
  cases g with
  | none => exact iff_of_true ⟨ws, rfl⟩ fun nm h => nomatch h
  | some x =>
    refine (assignResult_isSome_iff ws x.1 x.2).trans ⟨fun h nm hn => ?_, fun h => h _ rfl⟩
    obtain rfl := Option.some.inj hn
    exact h

theorem given_has_of_has {ws ws' : Wires} {g : Option (ℕ × Result)} (h : ws.given ws' g) {nm : Name}
    (hnm : ws.has nm = true) : ws'.has nm = true :=
  (agreeAt_has (given_agreeAt_of_has h hnm)).trans hnm

/-- Two values may be given in either order, and every name then has the same value. -/
theorem given_comm {ws ws₁ ws₁₂ : Wires} {g₁ g₂ : Option (ℕ × Result)} (h₁ : ws.given ws₁ g₁)
    (h₂ : ws₁.given ws₁₂ g₂) :
    ∃ ws₂ ws₂₁, ws.given ws₂ g₂ ∧ ws₂.given ws₂₁ g₁ ∧ ∀ nm, ws₂₁.agreeAt ws₁₂ nm := by
  have free₁ := exists_given_iff.1 ⟨ws₁, h₁⟩
  have free₂ := exists_given_iff.1 ⟨ws₁₂, h₂⟩
  have hne : ∀ nm, nameGiven g₁ = some nm → nameGiven g₂ ≠ some nm := fun nm hn hn' =>
    Bool.false_ne_true ((free₂ nm hn').symm.trans (given_has h₁ hn))
  obtain ⟨ws₂, k₂⟩ : ∃ ws₂, ws.given ws₂ g₂ := exists_given_iff.2 fun nm hn =>
    Bool.eq_false_iff.2 fun hhas => Bool.false_ne_true ((free₂ nm hn).symm.trans (given_has_of_has h₁ hhas))
  obtain ⟨ws₂₁, k₁⟩ : ∃ ws₂₁, ws₂.given ws₂₁ g₁ := exists_given_iff.2 fun nm hn =>
    (agreeAt_has (given_agreeAt k₂ (hne nm hn))).trans (free₁ nm hn)
  refine ⟨ws₂, ws₂₁, k₂, k₁, fun nm => ?_⟩
  by_cases hn : nameGiven g₁ = some nm
  case pos =>
    have h₁₂ := given_agreeAt h₂ (hne nm hn)
    have h₂₁ := given_agreeAt_both k₁ h₁ (given_agreeAt k₂ (hne nm hn))
    exact agreeAt_trans h₂₁ (agreeAt_symm h₁₂)
  case neg => exact agreeAt_trans (given_agreeAt k₁ hn) (given_agreeAt_both k₂ h₂ (agreeAt_symm (given_agreeAt h₁ hn)))

/-! ### Two lines listed in either order -/

theorem runSteps_succ_eq_next {s t : State} {n : ℕ} :
    runSteps (n + 1) s = .next t ↔ ∃ s', step s = .next s' ∧ runSteps n s' = .next t := by
  cases h : step s <;> simp [runSteps, h]

theorem runSteps_two {s s₁ t : State} (h₁ : step s = .next s₁) (h₂ : step s₁ = .next t) : runSteps 2 s = .next t := by
  rw [runSteps_of_next 1 h₁, runSteps_of_next 0 h₂, runSteps]

theorem step_of_reads_assigned {s : State} {l : Line} {rest : List Line} (hp : s.pending = l :: rest)
    (h : ∀ nm ∈ l.reads, s.wires.has nm = true) : step s = runLine l { s with pending := rest } :=
  step_of_pending hp (waits_eq_false _ h)

/-- Lines in the form of R69 share no port value, so one that waits lets the next run before it. -/
theorem step_of_waits {s : State} {l₁ l₂ : Line} {rest : List Line} (hp : s.pending = l₂ :: l₁ :: rest)
    (hn₁ : l₁.inNotation = true) (hn₂ : l₂.inNotation = true) (h₂ : l₂.waits s.wires s.pending = true)
    (h₁ : ∀ nm ∈ l₁.reads, s.wires.has nm = true) : step s = runLine l₁ { s with pending := l₂ :: rest } := by
  refine step_of_mayRun (before := [l₂]) (after := rest) hp ?mayRun ?passed
  case mayRun =>
    simp [Line.mayRun, waits_eq_false _ h₁, Line.sharePorts, readsPorts_of_inNotation hn₁, readsPorts_of_inNotation hn₂]
  case passed =>
    rintro (_ | k) m hm
    · cases hm
      simp [Line.mayRun, h₂]
    · cases hm

/-- What a line in the form of R69 gives does not change while the names it reads keep their values. -/
theorem gives_of_has {l : Line} {s s' : State} {g g' : Option (ℕ × Result)} (hn : l.inNotation = true)
    (hgiven : s.wires.given s'.wires g') (hreads : ∀ nm ∈ l.reads, s.wires.has nm = true) :
    s'.gives l = some g ↔ s.gives l = some g := by
  have hagree : ∀ nm ∈ l.reads, s'.wires.agreeAt s.wires nm := fun nm hnm =>
    given_agreeAt_of_has hgiven (hreads nm hnm)
  exact ⟨gives_congr (readsPorts_of_inNotation hn) (.inr hn) hagree,
    gives_congr (readsPorts_of_inNotation hn) (.inr hn) fun nm hnm => agreeAt_symm (hagree nm hnm)⟩

theorem runLine_pending {l : Line} {s t : State} (h : runLine l s = .next t) : t.pending = s.pending := by
  obtain ⟨g, -, -, hp⟩ := runLine_gives h
  exact hp

theorem runLine_has_of_has {l : Line} {s t : State} (h : runLine l s = .next t) {nm : Name}
    (hnm : s.wires.has nm = true) : t.wires.has nm = true := by
  obtain ⟨g, -, hgiven, -⟩ := runLine_gives h
  exact given_has_of_has hgiven hnm

/-- Two lines in the form of R69 whose names are all assigned run in either order, whatever lines are pending. -/
theorem runLine_exchange {s s₁ t : State} {l₁ l₂ : Line} {p₁ p₂ : List Line} (q₁ q₂ : List Line)
    (hn₁ : l₁.inNotation = true) (hn₂ : l₂.inNotation = true) (hr₁ : ∀ nm ∈ l₁.reads, s.wires.has nm = true)
    (hr₂ : ∀ nm ∈ l₂.reads, s.wires.has nm = true) (h₁ : runLine l₁ { s with pending := p₁ } = .next s₁)
    (h₂ : runLine l₂ { s₁ with pending := p₂ } = .next t) :
    ∃ u₁ u, runLine l₂ { s with pending := q₂ } = .next u₁ ∧ runLine l₁ { u₁ with pending := q₁ } = .next u ∧
      u.wires.sameNames t.wires := by
  obtain ⟨g₁, hg₁, hgiven₁, -⟩ := runLine_gives h₁
  obtain ⟨g₂, hg₂, hgiven₂, -⟩ := runLine_gives h₂
  obtain ⟨ws₂, ws₂₁, k₂, k₁, hagree⟩ := given_comm hgiven₁ hgiven₂
  have hgives₂ : State.gives { s with pending := q₂ } l₂ = some g₂ :=
    (gives_of_has (s := { s with pending := q₂ }) (s' := { s₁ with pending := p₂ }) hn₂ hgiven₁ hr₂).1 hg₂
  obtain ⟨u₁, hu₁, rfl, -⟩ := runLine_of_gives hgives₂ k₂
  have hgives₁ : State.gives { u₁ with pending := q₁ } l₁ = some g₁ :=
    (gives_of_has (s := { s with pending := p₁ }) (s' := { u₁ with pending := q₁ }) hn₁ k₂ hr₁).2 hg₁
  obtain ⟨u, hu, rfl, -⟩ := runLine_of_gives hgives₁ k₁
  exact ⟨u₁, u, hu₁, hu, sameNames_of_agreeAt hagree⟩

/-- A line that does not wait finds its names assigned, if each is assigned or is one that a pending line assigns. -/
theorem reads_assigned_of_not_waits {ws : Wires} {pending : List Line} {l m : Line} (hm : m ∈ pending)
    (hw : l.waits ws pending = false) (h : ∀ nm ∈ l.reads, ws.has nm = true ∨ m.assigns = some nm) :
    ∀ nm ∈ l.reads, ws.has nm = true := fun nm hnm => by
  refine (h nm hnm).elim id fun hassigns => ?_
  have hany : (pending.any fun m => decide (m.assigns = some nm)) = true :=
    List.any_eq_true.2 ⟨m, hm, decide_eq_true hassigns⟩
  simpa [hany] using List.any_eq_false.1 hw nm hnm

/-- Listed in the other order, a line that waits for the first runs after it as before, and one that does not runs
before it and gives the same. -/
theorem runSteps_exchange {s t : State} {l₁ l₂ : Line} {rest : List Line} (hn₁ : l₁.inNotation = true)
    (hn₂ : l₂.inNotation = true) (hr₁ : ∀ nm ∈ l₁.reads, s.wires.has nm = true)
    (hr₂ : ∀ nm ∈ l₂.reads, s.wires.has nm = true ∨ l₁.assigns = some nm)
    (h : runSteps 2 { s with pending := l₁ :: l₂ :: rest } = .next t) :
    ∃ u, runSteps 2 { s with pending := l₂ :: l₁ :: rest } = .next u ∧ u.pending = t.pending ∧
      u.wires.sameNames t.wires := by
  obtain ⟨s₁, hstep₁, h⟩ := runSteps_succ_eq_next.1 h
  obtain ⟨t', hstep₂, ht⟩ := runSteps_succ_eq_next.1 h
  obtain rfl : t' = t := Host.Outcome.next.inj ht
  have hrun₁ : runLine l₁ { s with pending := l₂ :: rest } = .next s₁ :=
    (step_of_reads_assigned (s := { s with pending := l₁ :: l₂ :: rest }) rfl hr₁).symm.trans hstep₁
  cases hw : l₂.waits s.wires (l₂ :: l₁ :: rest)
  case true =>
    have hstep := step_of_waits (s := { s with pending := l₂ :: l₁ :: rest }) rfl hn₁ hn₂ hw hr₁
    exact ⟨t', runSteps_two (hstep.trans hrun₁) hstep₂, rfl, sameNames_of_agreeAt (agreeAt_refl _)⟩
  case false =>
    have hr₂' := reads_assigned_of_not_waits (m := l₁) (by simp) hw hr₂
    have hrun₂ : runLine l₂ { s₁ with pending := rest } = .next t' :=
      (step_of_reads_assigned (runLine_pending hrun₁) fun nm hnm => runLine_has_of_has hrun₁ (hr₂' nm hnm)).symm.trans
        hstep₂
    obtain ⟨u₁, u, hu₁, hu, hsame⟩ :=
      runLine_exchange rest (l₁ :: rest) hn₁ hn₂ hr₁ hr₂' hrun₁ hrun₂
    have hstepu := step_of_reads_assigned (s := { s with pending := l₂ :: l₁ :: rest }) rfl hr₂'
    have hstepu₁ := step_of_reads_assigned (runLine_pending hu₁) fun nm hnm => runLine_has_of_has hu₁ (hr₁ nm hnm)
    exact ⟨u, runSteps_two (hstepu.trans hu₁) (hstepu₁.trans hu),
      (runLine_pending hu).trans (runLine_pending hrun₂).symm, hsame⟩

/-! ### The statement -/

/-- Settles O53, from an operation's answer as a function of the ports, the ports of its group as a function of the
names read, and two lines listed in either order. -/
theorem operationsDoNotAffectEachOther : Obligations.OperationsDoNotAffectEachOther := by
  refine ⟨fun i j s t h => ?operations, fun s s' op d dest i inp inp' hd hr hdraws hnames hin hin' => ?composite,
    fun s t l₁ l₂ rest hn₁ hn₂ hr₁ hr₂ h => runSteps_exchange hn₁ hn₂ hr₁ hr₂ h⟩
  case operations =>
    rw [exec_eq_report_answer, Host.Outcome.next.injEq] at h
    subst h
    rw [resultAfter_exec, resultAfter_exec, State.report_inputs]
    exact ⟨rfl, rfl⟩
  case composite =>
    obtain ⟨inp'', hin'', hagree⟩ := driven_agreeOn (operationOf_of_decode hd) hr (.inl hdraws) hnames hin
    obtain rfl : inp' = inp'' := Except.ok.inj (hin'.symm.trans hin'')
    exact result_congr i hagree

end Sys2Proof.Machine
end
